-- ==== Sys2Proof/Word.lean ====
section
/-! DEFINITION. The two value types of the machine: bytes and 32-bit words (00_scope.md R7). -/

namespace Sys2Proof

/-- A byte: a number in 0..255 (R7). -/
abbrev Byte := BitVec 8

/-- A word, the spec's `u32` (R7): register values, addresses, lengths, state words. -/
abbrev Word := BitVec 32

end Sys2Proof
end

