-- ==== Sys2Proof/Syntax.lean ====
section
/-! DEFINITION. The six commands of the engine (30_encoding.md R81) and the accesses by which the host
drives it (00_scope.md R6; 30_encoding.md R88). -/

namespace Sys2Proof

/-- The commands, one constructor per row of the opcode map (R81). A command has no register fields and
no immediates (R80, R82): its operands are the operand registers at the CMD write. -/
inductive Instr where
  | init
  | update
  | final
  | wipe
  | keycrunch
  | rehash
deriving DecidableEq, Repr

/-- One access of the host, or one reset, in the order the engine meets them (R6; 20_memory.md R64;
70_reset_and_hazards.md R220; log entry 2). -/
inductive HostAccess where
  /-- `RegWrite(n, v)`, an access `width` bits wide; a write of register 0 launches a command. -/
  | regWrite (n width : Nat) (v : Word)
  /-- `RegRead(n)`, an access `width` bits wide. -/
  | regRead (n width : Nat)
  /-- The host writes a byte of its own memory MEM between commands (R6, R64 c). -/
  | memStore (addr : Word) (b : Byte)
  /-- The host reads a byte of MEM between commands (R64 d). -/
  | memLoad (addr : Word)
  /-- Reset between commands (R220). -/
  | reset
  /-- A write of `w` to CMD whose command is cut short by reset (R220, U4). -/
  | cutCommand (w : Word)
deriving DecidableEq, Repr

end Sys2Proof
end

