-- ==== Sys2Proof/WellFormed.lean ====
section
/-! DEFINITION. Which commands and which host accesses are terms of the machine. -/

namespace Sys2Proof

/-- A command has no operand fields (30_encoding.md R80, R82), so no constructor can be ill-formed. -/
def Instr.wellFormed : Instr → Bool
  | .init => true
  | .update => true
  | .final => true
  | .wipe => true
  | .keycrunch => true
  | .rehash => true

/-- The register space has exactly the registers 0..7 and every access is a whole 32-bit word
(10_state.md R31); MEM has a byte at every 32-bit address (20_memory.md R50). -/
def HostAccess.wellFormed : HostAccess → Bool
  | .regWrite n width _ => decide (n < 8) && width == 32
  | .regRead n width => decide (n < 8) && width == 32
  | .memStore _ _ => true
  | .memLoad _ => true
  | .reset => true
  | .cutCommand _ => true

end Sys2Proof
end

