-- ==== Sys2Proof/Decode.lean ====
section
/-! DEFINITION. The command word (30_encoding.md R80 to R86): decoder, total on every word and rejecting by
name, and encoder. -/

namespace Sys2Proof

/-- Why a word is an illegal command (R84). Both reasons are refused with `ERR_ILLEGAL_CMD`
(60_exceptions.md R192). -/
inductive IllegalWord where
  /-- Bits 31:8, the field `zero` of format C, are not 0. -/
  | nonzeroUpper
  /-- Bits 7:0 are `0x00` or in `0x07..0xFF`. -/
  | unassignedOpcode
deriving DecidableEq, Repr

/-- Field `opcode` of format C, bits 7:0 (R80). -/
def opcodeField (w : Word) : BitVec 8 := w.extractLsb' 0 8

/-- Field `zero` of format C, bits 31:8 (R80). -/
def zeroField (w : Word) : BitVec 24 := w.extractLsb' 8 24

/-- Decode of the value of a CMD write, in the order of R86. -/
def decode (w : Word) : Except IllegalWord Instr :=
  if zeroField w ≠ 0 then .error .nonzeroUpper
  else match (opcodeField w).toNat with
    | 1 => .ok .init
    | 2 => .ok .update
    | 3 => .ok .final
    | 4 => .ok .wipe
    | 5 => .ok .keycrunch
    | 6 => .ok .rehash
    | _ => .error .unassignedOpcode

/-- The command word of each command: the column `match` of R81. -/
def encode : Instr → Word
  | .init => 0x00000001#32
  | .update => 0x00000002#32
  | .final => 0x00000003#32
  | .wipe => 0x00000004#32
  | .keycrunch => 0x00000005#32
  | .rehash => 0x00000006#32

/-- The opcode map as R81 prints it: for each row its match, its mask and its command. -/
def opcodeMap : List (Word × Word × Instr) :=
  [(0x00000001#32, 0xFFFFFFFF#32, .init),
   (0x00000002#32, 0xFFFFFFFF#32, .update),
   (0x00000003#32, 0xFFFFFFFF#32, .final),
   (0x00000004#32, 0xFFFFFFFF#32, .wipe),
   (0x00000005#32, 0xFFFFFFFF#32, .keycrunch),
   (0x00000006#32, 0xFFFFFFFF#32, .rehash)]

/-- What `decode` reads from a command of `nbits` bits whose bits are `w`, numbered as the opcode table numbers
them. The one word of a command is the value the host writes to CMD, so no byte order enters (R80). -/
def decodeTableWord (nbits w : Nat) : Option Instr :=
  match decode (BitVec.ofNat 32 (w % 2 ^ nbits)) with
  | .ok i => some i
  | .error _ => none

end Sys2Proof
end

