-- ==== Sys2Proof/Config.lean ====
section
/-! DEFINITION. The parameters of one engine (00_scope.md R5), the numbers the spec fixes for every
engine, and the one free value of the model. -/

namespace Sys2Proof

/-- The two kinds of engine access to MEM (20_memory.md R59). -/
inductive AccessKind where
  | read
  | write
deriving DecidableEq, Repr

/-- A range of MEM addresses that the platform keeps the engine from reading, from writing, or from
both: one piece of parameter `MEM_VALID` (R59). -/
structure Hole where
  base : Nat
  size : Nat
  noRead : Bool
  noWrite : Bool
deriving DecidableEq, Repr

/-- The open parameters of R5. They are configuration: no step changes them.
`MEM_VALID` is given by the ranges it excludes (log entry 3); every predicate on the finite address
space can be written so, and the spec's default, true everywhere, is the empty list. -/
structure Config where
  /-- `BE`: the engine's internal word view is big-endian. -/
  be : Bool
  /-- `SCRATCH_BYTES`; `none` is the unbounded scratch buffer that R5 allows. -/
  scratchBytes : Option Nat
  /-- Where `MEM_VALID` is false. -/
  holes : List Hole
deriving DecidableEq, Repr

/-- The configuration of `State.reset`: DESIGN CHOICE for `be` and `scratchBytes`, which the spec leaves open;
the spec's default for `MEM_VALID` (log entry 3). -/
def Config.usual : Config := { be := false, scratchBytes := none, holes := [] }

/-- MEM has `2^32` bytes (20_memory.md R50; parameter `AW = 32`). -/
abbrev Config.memBytes : Nat := 4294967296

/-- The size of a block and of the InputBuffer in bytes (R5: "block 16 words = 64 bytes"). -/
abbrev Config.blockBytes : Nat := 64

/-- FREE VALUE (70_reset_and_hazards.md R220; 93_implementation_defined.md U4; log entry 6).
A command cut short by reset leaves each byte of its MEM destination either old or new: for draw number
`n` and byte number `i` of the destination, `Config.cutWrote n i` says whether the new byte got there.
Nothing constrains it. -/
opaque Config.cutWrote : Nat → Nat → Bool

end Sys2Proof
end

