-- ==== Sys2Proof/Machine/State.lean ====
section
/-! DEFINITION. Everything the engine holds between two host accesses (10_state.md R20, R34), beside it MEM,
the engine's parameters, the host's accesses still to come, and the state after reset. -/

namespace Sys2Proof.Machine

open Sys2Proof

/-- `PHASE`, the lifecycle register (10_state.md R25). Its fourth value, 3, is never held, so it is no
constructor (log entry 14). -/
inductive Phase where
  /-- 0: no live context (after reset, FINAL, WIPE). -/
  | finalized
  /-- 1: after INIT, before any UPDATE. -/
  | empty
  /-- 2: after at least one accepted UPDATE. -/
  | accumulating
deriving DecidableEq, Repr

/-- `STATUS.ERR`, the result of the latest CMD write (60_exceptions.md R191). Codes 6..15 are never produced
(log entry 14). -/
inductive ErrCode where
  | ok
  | illegalCmd
  | badPhase
  | addrRange
  | memFault
  | allocFail
deriving DecidableEq, Repr

/-- Four words: `H[0..3]`, and the lanes `a`, `b`, `c`, `d` of a compression, which start from them in this
order (10_state.md R21, R33). -/
structure Lanes where
  a : Word
  b : Word
  c : Word
  d : Word
deriving DecidableEq, Repr

/-- Sixty-four bytes, the InputBuffer `in[0..63]` (10_state.md R23), with its size once and for all. -/
@[ext] structure Buffer where
  bytes : List Byte
  size : bytes.length = 64
deriving DecidableEq, Repr

/-- The buffer of zeros. -/
def Buffer.zero : Buffer := ⟨List.replicate 64 0#8, List.length_replicate⟩

/-- A context: DigestState, BitCounter and InputBuffer (00_scope.md R12; 10_state.md R21 to R23). There is no
fourth member (conflict C1). The host context and the KD unit's private context `K` have this one shape (R34). -/
structure Context where
  /-- `H[0..3]`. -/
  h : Lanes
  /-- `bits[0]`, the low half of the bit counter. -/
  bitsLo : Word
  /-- `bits[1]`, the high half. -/
  bitsHi : Word
  /-- `in[0..63]`. -/
  buf : Buffer
deriving DecidableEq, Repr

/-- The wiped context: all 4 + 2 words and all 64 bytes are 0 (42_stream.md R151). -/
def Context.zero : Context := { h := ⟨0, 0, 0, 0⟩, bitsLo := 0, bitsHi := 0, buf := Buffer.zero }

/-- MEM (20_memory.md R50): address and byte pairs in one canonical form, `Memory.wf`. -/
abbrev Memory := List Host.Cell

/-- What an access returned to the host (log entry 5). -/
inductive Reply where
  /-- The value of a register read. -/
  | word (v : Word)
  /-- The byte of a MEM read of the host. -/
  | byte (b : Byte)
deriving DecidableEq, Repr

/-- The machine at one moment, between two host accesses. -/
structure State where
  /-- The engine's parameters, fixed for its whole life (00_scope.md R5; log entry 3). -/
  cfg : Config
  /-- The host context `(H, bits, in)`. -/
  ctx : Context
  /-- `PHASE`. -/
  phase : Phase
  /-- Register 2, `SRC_ADDR`. -/
  srcAddr : Word
  /-- Register 3, `SRC_LEN`. -/
  srcLen : Word
  /-- Register 4, `AUX_ADDR`. -/
  auxAddr : Word
  /-- Register 5, `AUX_LEN`. -/
  auxLen : Word
  /-- Register 6, `DST_ADDR`. -/
  dstAddr : Word
  /-- `STATUS.ERR`. -/
  err : ErrCode
  /-- `STATUS.STICKY`. -/
  sticky : Bool
  /-- The KD unit's private context `K` (10_state.md R34; log entry 13). -/
  kd : Context
  /-- `MEM`. -/
  mem : Memory
  /-- The host's accesses still to come, oldest first (the model's own field; log entry 2). -/
  host : List HostAccess
  /-- What the host's latest access returned (the model's own field; log entry 5). -/
  reply : Option Reply
  /-- The number of the next draw of the free value (the model's own field; log entry 6). -/
  freeCount : Nat
deriving DecidableEq, Repr

/-- The engine right after reset, for each configuration (10_state.md R38), with no host access yet to come
and with MEM, which is not the engine's, listing nothing (log entry 4). -/
def State.resetWith (cfg : Config) : State :=
  { cfg := cfg
    ctx := Context.zero
    phase := .finalized
    srcAddr := 0
    srcLen := 0
    auxAddr := 0
    auxLen := 0
    dstAddr := 0
    err := .ok
    sticky := false
    kd := Context.zero
    mem := []
    host := []
    reply := none
    freeCount := 0 }

/-- The machine right after reset, with the configuration of log entry 3. -/
def State.reset : State := State.resetWith Config.usual

/-- The reasons for which a step stops the machine: the two host accesses of which the spec says that the
machine has no such step (10_state.md R31; 93_implementation_defined.md U7; log entry 12). -/
inductive Fault where
  /-- Raised by the step for a register number outside 0..7. Safe: the spec gives this access no effect at all. -/
  | noSuchRegister (n : Nat)
  /-- Raised by the step for a register access that is not 32 bits wide. Safe, for the same reason. -/
  | notWholeWord (width : Nat)
deriving DecidableEq, Repr

/-- The reasons for which a command could have no meaning in this model. Every command has one, so no step
answers a refusal. (What the spec calls a refused command is a next state: `State.refuse`.) -/
inductive Refusal where
  /-- Raised by `exec` for a command with no meaning yet; no arm does. Safe. -/
  | notModelled (mnemonic : String)
deriving DecidableEq, Repr

end Sys2Proof.Machine
end

