-- ==== Sys2Proof/Machine/Ops.lean ====
section
/-! DEFINITION. The named operations over memory, and the two ways a command ends: completed, or refused
(60_exceptions.md R190), which is this machine's one exception. -/

namespace Sys2Proof.Machine

open Sys2Proof

/-! ### Memory (20_memory.md R50, R51) -/

/-- What a byte of MEM that is not listed reads as: DESIGN CHOICE 0 (log entry 4). -/
def Memory.unlisted : Byte := 0

/-- The byte at address `a`. -/
def Memory.read : Memory → Nat → Byte
  | [], _ => Memory.unlisted
  | (k, v) :: m, a => if k = a then v else Memory.read m a

/-- The canonical form: addresses strictly rising and inside MEM, and no entry equal to what an
unlisted address reads as. -/
def Memory.wfFrom : Nat → Memory → Bool
  | _, [] => true
  | low, (k, v) :: m =>
    decide (low ≤ k) && decide (k < Config.memBytes) && decide (v ≠ Memory.unlisted) && Memory.wfFrom (k + 1) m

/-- The memory is in canonical form. -/
def Memory.wf (m : Memory) : Bool := Memory.wfFrom 0 m

/-- Set the byte at address `a`, keeping the canonical form. -/
def Memory.write : Memory → Nat → Byte → Memory
  | [], a, b => if b = Memory.unlisted then [] else [(a, b)]
  | (k, v) :: m, a, b =>
    if k < a then (k, v) :: Memory.write m a b
    else if k = a then (if b = Memory.unlisted then m else (a, b) :: m)
    else (if b = Memory.unlisted then (k, v) :: m else (a, b) :: (k, v) :: m)

/-- `MemRead(addr, n)`: the `n` bytes from `a` upwards (R51). -/
def Memory.readBytes (m : Memory) (a : Nat) : Nat → List Byte
  | 0 => []
  | n + 1 => m.read a :: Memory.readBytes m (a + 1) n

/-- `MemWrite(addr, len(bs), bs)`: the bytes of `bs` from `a` upwards, and no other cell (R51). -/
def Memory.writeBytes (m : Memory) (a : Nat) : List Byte → Memory
  | [] => m
  | b :: bs => Memory.writeBytes (m.write a b) (a + 1) bs

/-- Parameter `MEM_VALID(addr, kind)` (R59): no hole that denies this kind of access holds the address. -/
def memValid (cfg : Config) (a : Nat) (kind : AccessKind) : Bool :=
  cfg.holes.all fun hole =>
    !((match kind with
        | .read => hole.noRead
        | .write => hole.noWrite)
      && decide (hole.base ≤ a) && decide (a < hole.base + hole.size))

/-! ### How a command ends -/

/-- `raise Err(code)`, the refusal of a command (60_exceptions.md R190, R199): the code goes to ERR, STICKY is
set, and nothing else changes. No handler is entered and nothing is saved. -/
def State.refuse (s : State) (code : ErrCode) : State := { s with err := code, sticky := true }

/-- `STATUS.ERR <- 0`, the last line of every completing command (10_state.md R40). It is all there is to a
return from a refusal: the next completing command does it; STICKY stays (60_exceptions.md R200). -/
def State.complete (s : State) : State := { s with err := .ok }

/-- The error of the first check that fails, the checks standing in the order of 60_exceptions.md R198. -/
def firstError : List (Bool × ErrCode) → Option ErrCode
  | [] => none
  | (passes, code) :: checks => if passes then firstError checks else some code

/-- One command: its checks before any effect, then either its effect and completion, or a refusal (R190, R198). -/
def State.attempt (s : State) (checks : List (Bool × ErrCode)) (effect : State → State) :
    Host.Outcome State Fault Refusal :=
  match firstError checks with
  | none => .next (effect s).complete
  | some code => .next (s.refuse code)

/-! ### Reset -/

/-- Reset of the engine (10_state.md R38; 70_reset_and_hazards.md R220): every piece of its state takes its
reset value; MEM, the configuration, the host's later accesses and the free value's counter are not the engine's. -/
def State.resetEngine (s : State) : State :=
  { State.resetWith s.cfg with mem := s.mem, host := s.host, freeCount := s.freeCount }

/-- The memory after `n` destination bytes from `a` upwards were left old or new by a reset in the middle of
their writing: byte number `i` and those after it, `wrote` saying which got there (R220, U4). -/
def Memory.mixBytes (old new : Memory) (wrote : Nat → Bool) (a i : Nat) : Nat → Memory
  | 0 => old
  | n + 1 =>
    (Memory.mixBytes old new wrote a (i + 1) n).write (a + i)
      (if wrote i then new.read (a + i) else old.read (a + i))

end Sys2Proof.Machine
end

