-- ==== Sys2Proof/Machine/ByteOrder.lean ====
section
/-! DEFINITION. Bytes and words (00_scope.md R9), byte buffers inside the engine, and the byte-order
normalizer NORMALIZE (40_byte_order.md R100 to R106). -/

namespace Sys2Proof.Machine

open Sys2Proof

/-- `LE32(b0, b1, b2, b3) = b0 + 2^8 b1 + 2^16 b2 + 2^24 b3` (R9). -/
def le32 (b0 b1 b2 b3 : Byte) : Word := b3 ++ b2 ++ b1 ++ b0

/-- `BE32(b0, b1, b2, b3) = 2^24 b0 + 2^16 b1 + 2^8 b2 + b3` (R9). -/
def be32 (b0 b1 b2 b3 : Byte) : Word := b0 ++ b1 ++ b2 ++ b3

/-- `le_bytes32(v) = [v[7:0], v[15:8], v[23:16], v[31:24]]` (R9). -/
def leBytes32 (v : Word) : List Byte :=
  [v.extractLsb' 0 8, v.extractLsb' 8 8, v.extractLsb' 16 8, v.extractLsb' 24 8]

/-- `be_bytes32(v) = [v[31:24], v[23:16], v[15:8], v[7:0]]` (R9). -/
def beBytes32 (v : Word) : List Byte :=
  [v.extractLsb' 24 8, v.extractLsb' 16 8, v.extractLsb' 8 8, v.extractLsb' 0 8]

/-- `buf[off .. off+len(data)-1] <- data`, inside the buffer: the pseudocode's assignment to a slice. -/
def overwrite (off : Nat) (data buf : List Byte) : List Byte :=
  buf.take off ++ data.take (buf.length - off) ++ buf.drop (off + data.length)

/-- `NativeLoad32(buf, off)` (R9). -/
def nativeLoad32 (be : Bool) (buf : List Byte) (off : Nat) : Word :=
  if be then be32 (buf.getD off 0) (buf.getD (off + 1) 0) (buf.getD (off + 2) 0) (buf.getD (off + 3) 0)
  else le32 (buf.getD off 0) (buf.getD (off + 1) 0) (buf.getD (off + 2) 0) (buf.getD (off + 3) 0)

/-- The four bytes that `NativeStore32` writes (R9). -/
def nativeBytes32 (be : Bool) (v : Word) : List Byte := if be then beBytes32 v else leBytes32 v

/-- `NativeStore32(buf, off, v)` (R9). -/
def nativeStore32 (be : Bool) (off : Nat) (v : Word) (buf : List Byte) : List Byte :=
  overwrite off (nativeBytes32 be v) buf

/-- Reverse the four bytes of each of the first `n` words; the words keep their places (R102). -/
def swapWords : Nat → List Byte → List Byte
  | n + 1, b0 :: b1 :: b2 :: b3 :: rest => b3 :: b2 :: b1 :: b0 :: swapWords n rest
  | _, buf => buf

/-- `NORMALIZE(buf, n)` (R100): the swap when `BE`, else nothing. -/
def normalizeWords (be : Bool) (n : Nat) (buf : List Byte) : List Byte := if be then swapWords n buf else buf

/-- The native word view `Words(buf)[i] = NativeLoad32(buf, 4 i)`, i in 0..15 (41_compress.md R125). -/
def nativeWords (be : Bool) (buf : List Byte) : List Word :=
  (List.range 16).map fun i => nativeLoad32 be buf (4 * i)

theorem overwrite_length (off : Nat) (data buf : List Byte) :
    (overwrite off data buf).length = buf.length := by
  simp [overwrite]; omega

theorem swapWords_length (n : Nat) (buf : List Byte) : (swapWords n buf).length = buf.length := by
  induction n, buf using swapWords.induct with
  | case1 n b0 b1 b2 b3 rest ih => simp [swapWords, ih]
  | case2 n buf h => rw [swapWords]; exact h

theorem normalizeWords_length (be : Bool) (n : Nat) (buf : List Byte) :
    (normalizeWords be n buf).length = buf.length := by
  cases be <;> simp [normalizeWords, swapWords_length]

/-- The slice assignment on the 64-byte buffer. -/
def Buffer.put (off : Nat) (data : List Byte) (b : Buffer) : Buffer :=
  ⟨overwrite off data b.bytes, (overwrite_length off data b.bytes).trans b.size⟩

/-- `NativeStore32` on the 64-byte buffer. -/
def Buffer.store32 (be : Bool) (off : Nat) (v : Word) (b : Buffer) : Buffer :=
  ⟨nativeStore32 be off v b.bytes, (overwrite_length off _ b.bytes).trans b.size⟩

/-- `NORMALIZE(in, n)` on the 64-byte buffer. -/
def Buffer.normalize (be : Bool) (n : Nat) (b : Buffer) : Buffer :=
  ⟨normalizeWords be n b.bytes, (normalizeWords_length be n b.bytes).trans b.size⟩

end Sys2Proof.Machine
end

