-- ==== Sys2Proof/Machine/Compress.lean ====
section
/-! DEFINITION. The compression core (41_compress.md R110 to R123). -/

namespace Sys2Proof.Machine

open Sys2Proof

/-- `rotl32(x, s)` (00_scope.md R8). -/
def rotl32 (x : Word) (s : Nat) : Word := (x <<< s) ||| (x >>> (32 - s))

/-- F, the pass-1 function "choose" (R111). -/
def mixF (x y z : Word) : Word := (x &&& y) ||| (~~~x &&& z)

/-- G, the pass-2 function "majority" (R112). -/
def mixG (x y z : Word) : Word := (x &&& y) ||| (x &&& z) ||| (y &&& z)

/-- H, the pass-3 function "parity" (R113). -/
def mixH (x y z : Word) : Word := x ^^^ y ^^^ z

/-- The mixing function of a pass. -/
inductive Mix where
  | f
  | g
  | h
deriving DecidableEq, Repr

/-- A lane's name. -/
inductive Lane where
  | a
  | b
  | c
  | d
deriving DecidableEq, Repr

/-- One row of the schedule (R119): mixing function, target lane, word index `k`, rotation `s`, constant `K`. -/
structure RoundRow where
  mix : Mix
  target : Lane
  word : Nat
  rot : Nat
  const : Word
deriving DecidableEq, Repr

/-- The function a mixing function's name stands for. -/
def applyMix : Mix → Word → Word → Word → Word
  | .f => mixF
  | .g => mixG
  | .h => mixH

/-- The target lane of round `r`: the cycle a, d, c, b (R118). -/
def targetOf (r : Nat) : Lane :=
  match r % 4 with
  | 0 => .a
  | 1 => .d
  | 2 => .c
  | _ => .b

/-- The word order of pass 2 (R116). -/
def wordOrder2 : List Nat := [0, 4, 8, 12, 1, 5, 9, 13, 2, 6, 10, 14, 3, 7, 11, 15]

/-- The word order of pass 3 (R117). -/
def wordOrder3 : List Nat := [0, 8, 4, 12, 2, 10, 6, 14, 1, 9, 5, 13, 3, 11, 7, 15]

/-- Row `r` of the schedule, from the three pass rules R115, R116, R117 and the lane rule R118. -/
def roundRow (r : Nat) : RoundRow :=
  match r / 16 with
  | 0 => ⟨.f, targetOf r, r, [3, 7, 11, 19].getD (r % 4) 0, 0⟩
  | 1 => ⟨.g, targetOf r, wordOrder2.getD (r - 16) 0, [3, 5, 9, 13].getD (r % 4) 0, 0x5a827999#32⟩
  | _ => ⟨.h, targetOf r, wordOrder3.getD (r - 32) 0, [3, 9, 11, 15].getD (r % 4) 0, 0x6ed9eba1#32⟩

/-- The 48 rows of the schedule, in order (R119). -/
def schedule : List RoundRow := (List.range 48).map roundRow

/-- ROUND's new value of the target: `rotl32(t + mix(x, y, z) + w + K, s)` modulo `2^32` (R114). -/
def roundValue (mix : Mix) (t x y z w k : Word) (s : Nat) : Word := rotl32 (t + applyMix mix x y z + w + k) s

/-- One round: only the target lane changes, the operands are the other three in the cyclic order of R118. -/
def applyRow (X : List Word) (v : Lanes) (row : RoundRow) : Lanes :=
  match row.target with
  | .a => { v with a := roundValue row.mix v.a v.b v.c v.d (X.getD row.word 0) row.const row.rot }
  | .d => { v with d := roundValue row.mix v.d v.a v.b v.c (X.getD row.word 0) row.const row.rot }
  | .c => { v with c := roundValue row.mix v.c v.d v.a v.b (X.getD row.word 0) row.const row.rot }
  | .b => { v with b := roundValue row.mix v.b v.c v.d v.a (X.getD row.word 0) row.const row.rot }

/-- The feed-forward, lane by lane modulo `2^32` (R120). -/
def Lanes.add (s v : Lanes) : Lanes := ⟨s.a + v.a, s.b + v.b, s.c + v.c, s.d + v.d⟩

/-- COMPRESS(S, X): 48 rounds, then the feed-forward (R121). -/
def compress (S : Lanes) (X : List Word) : Lanes := S.add (schedule.foldl (applyRow X) S)

end Sys2Proof.Machine
end

