-- ==== Sys2Proof/Machine/Digest.lean ====
section
/-! DEFINITION. The digest operations on one context (42_stream.md R141 to R151), written once for the host
context and for the KD unit's private context (43_otp.md R177). Every one takes the engine's `BE`. -/

namespace Sys2Proof.Machine

open Sys2Proof

/-- "Magic constants (must match exactly)": the state words that INIT loads (R141). -/
def initialState : Lanes := ⟨0x67452301#32, 0xefcdab89#32, 0x98badcfe#32, 0x10325476#32⟩

/-- The pending-byte count `(bits[0] >> 3) & 0x3F` (10_state.md R24). -/
def Context.pending (c : Context) : Nat := ((c.bitsLo >>> 3) &&& 0x3F#32).toNat

/-- INIT's effect on a context: the constants and a zero counter; `in` is not written (R141). -/
def Context.start (c : Context) : Context := { c with h := initialState, bitsLo := 0, bitsHi := 0 }

/-- ADVANCE(len) (R142): `lo` is the low 32 bits of `8 len`, the carry of `bits[0] + lo` and `len >> 29` go to
the high half. `len` is a number, not a word, so that it also serves DigestOnK on more than `2^32 - 1` bytes
(log entry 9). -/
def Context.advance (len : Nat) (c : Context) : Context :=
  let lo : Word := BitVec.ofNat 32 (8 * len)
  let carry : Word := if c.bitsLo.toNat + lo.toNat ≥ 2 ^ 32 then 1 else 0
  { c with bitsLo := c.bitsLo + lo, bitsHi := c.bitsHi + carry + BitVec.ofNat 32 (len / 2 ^ 29) }

/-- `H <- COMPRESS(H, Words(in))` (41_compress.md R125). -/
def Context.compressBuf (be : Bool) (c : Context) : Context :=
  { c with h := compress c.h (nativeWords be c.buf.bytes) }

/-- `NORMALIZE(in, 16); H <- COMPRESS(H, Words(in))`. -/
def Context.absorb (be : Bool) (c : Context) : Context :=
  Context.compressBuf be { c with buf := c.buf.normalize be 16 }

/-- `in[off ..] <- data`. -/
def Context.put (off : Nat) (data : List Byte) (c : Context) : Context := { c with buf := c.buf.put off data }

/-- UPDATE's block loop and tail (R144): while at least 64 bytes remain, one block each; then the 0..63 bytes left go
to the front of `in`. The first argument bounds the number of blocks. -/
def Context.blocks (be : Bool) : Nat → List Byte → Context → Context
  | 0, data, c => c.put 0 data
  | k + 1, data, c =>
    if 64 ≤ data.length then Context.blocks be k (data.drop 64) ((c.put 0 (data.take 64)).absorb be)
    else c.put 0 data

/-- UPDATE's effect on a context (R144, R145): the pending count is that of the counter BEFORE the advance
(conflict C2). -/
def Context.update (be : Bool) (data : List Byte) (c : Context) : Context :=
  let n := c.pending
  let c1 := c.advance data.length
  if n ≠ 0 then
    let need := 64 - n
    if data.length < need then c1.put n data
    else Context.blocks be (data.length / 64) (data.drop need) ((c1.put n (data.take need)).absorb be)
  else Context.blocks be (data.length / 64) data c1

/-- PAD (R148): `0x80`, then zeros, with one more block when fewer than 8 bytes remain after the `0x80`. -/
def Context.pad (be : Bool) (c : Context) : Context :=
  let count := c.pending
  let c1 := c.put count [0x80#8]
  let rem := 63 - count
  if rem < 8 then ((c1.put (count + 1) (List.replicate rem 0#8)).absorb be).put 0 (List.replicate 56 0#8)
  else c1.put (count + 1) (List.replicate (rem - 8) 0#8)

/-- TRAILER (R149): normalize the first 14 words only, then the counter in native order, low half first, not
normalized (40_byte_order.md R106), then the last COMPRESS. -/
def Context.trailer (be : Bool) (c : Context) : Context :=
  Context.compressBuf be
    { c with buf := ((c.buf.normalize be 14).store32 be 56 c.bitsLo).store32 be 60 c.bitsHi }

/-- OUTPUT (R150): the state words as 16 native bytes, normalized. -/
def Context.output (be : Bool) (c : Context) : List Byte :=
  normalizeWords be 4 (nativeBytes32 be c.h.a ++ nativeBytes32 be c.h.b ++ nativeBytes32 be c.h.c ++ nativeBytes32 be c.h.d)

/-- PAD, TRAILER and OUTPUT of FINAL: the 16 digest bytes (R147). -/
def Context.digest (be : Bool) (c : Context) : List Byte := ((c.pad be).trailer be).output be

/-- WIPECTX: the whole context to zero (R151); its write of PHASE is made by the commands that own a PHASE. -/
def Context.wipe (_ : Context) : Context := Context.zero

end Sys2Proof.Machine
end

