-- ==== Sys2Proof/Machine/Flags.lean ====
section
/-! DEFINITION. The read-only registers STATUS and CFG (10_state.md R25, R29, R30) and the error codes
(60_exceptions.md R191). The engine has no arithmetic flags (41_compress.md R122). -/

namespace Sys2Proof.Machine

open Sys2Proof

/-- The encoding of `PHASE` (R25). -/
def Phase.code : Phase → Nat
  | .finalized => 0
  | .empty => 1
  | .accumulating => 2

/-- The encoding of `STATUS.ERR` (R191). -/
def ErrCode.code : ErrCode → Nat
  | .ok => 0
  | .illegalCmd => 1
  | .badPhase => 2
  | .addrRange => 3
  | .memFault => 4
  | .allocFail => 5

/-- The value of STATUS: `PHASE + 4 * ERR + 64 * STICKY` (R29). -/
def State.statusWord (s : State) : Word :=
  BitVec.ofNat 32 (s.phase.code + 4 * s.err.code + 64 * s.sticky.toNat)

/-- The value of CFG: bit 0 is `BE`, the rest 0 (R30). -/
def State.cfgWord (s : State) : Word := if s.cfg.be then 1 else 0

/-- `PHASE ≠ 0`: there is a live context (60_exceptions.md R193). -/
def State.live (s : State) : Bool := decide (s.phase ≠ .finalized)

end Sys2Proof.Machine
end

