-- ==== Sys2Proof/Machine/Operands.lean ====
section
/-! DEFINITION. The operand forms of the commands: byte buffers `(address, length)` given by operand registers
(30_encoding.md R82, R83), their range and validity checks (20_memory.md R58, R59), and the operand registers
as numbered registers (10_state.md R27). -/

namespace Sys2Proof.Machine

open Sys2Proof

/-- A byte buffer in MEM: the `len` bytes from `addr` upwards (20_memory.md R51). -/
structure Span where
  addr : Word
  len : Nat
deriving DecidableEq, Repr

/-- The source buffer of UPDATE and the seed of KEYCRUNCH: `(SRC_ADDR, SRC_LEN)`. -/
def State.srcSpan (s : State) : Span := ⟨s.srcAddr, s.srcLen.toNat⟩

/-- The passphrase of KEYCRUNCH: `(AUX_ADDR, AUX_LEN)`. -/
def State.auxSpan (s : State) : Span := ⟨s.auxAddr, s.auxLen.toNat⟩

/-- The destination of FINAL: 16 bytes at `DST_ADDR` (R82). -/
def State.digestSpan (s : State) : Span := ⟨s.dstAddr, 16⟩

/-- The key of KEYCRUNCH and REHASH: 8 bytes at `DST_ADDR` (R82). -/
def State.keySpan (s : State) : Span := ⟨s.dstAddr, 8⟩

/-- The range rule (R58), in the naturals: an empty buffer passes for every address. -/
def Span.inRange (p : Span) : Bool := p.len == 0 || decide (p.addr.toNat + p.len ≤ Config.memBytes)

/-- `MEM_VALID` for every byte of the buffer (R59). -/
def Span.valid (p : Span) (cfg : Config) (kind : AccessKind) : Bool :=
  (List.range p.len).all fun i => memValid cfg (p.addr.toNat + i) kind

/-- The bytes of the buffer, in ascending address order. -/
def Span.load (p : Span) (m : Memory) : List Byte := m.readBytes p.addr.toNat p.len

/-- Write the buffer's bytes. -/
def Span.store (p : Span) (m : Memory) (bs : List Byte) : Memory := m.writeBytes p.addr.toNat bs

/-- The value of operand register `n`, 2..6 (10_state.md R27, R31); 0 for the other numbers, which are no
operand registers. -/
def State.operand (s : State) : Nat → Word
  | 2 => s.srcAddr
  | 3 => s.srcLen
  | 4 => s.auxAddr
  | 5 => s.auxLen
  | 6 => s.dstAddr
  | _ => 0

/-- `RegWrite(n, v)` for the operand registers 2..6: all 32 bits are stored; no other number stores (R31). -/
def State.setOperand (s : State) (n : Nat) (v : Word) : State :=
  match n with
  | 2 => { s with srcAddr := v }
  | 3 => { s with srcLen := v }
  | 4 => { s with auxAddr := v }
  | 5 => { s with auxLen := v }
  | 6 => { s with dstAddr := v }
  | _ => s

end Sys2Proof.Machine
end

