-- ==== Sys2Proof/Machine/Otp.lean ====
section
/-! DEFINITION. The two commands of the key-derivation unit (43_otp.md): KEYCRUNCH and REHASH, and their
internal operations. -/

namespace Sys2Proof.Machine

open Sys2Proof

/-- FOLD (R170): word 0 with word 2, word 1 with word 3, through the native word view. -/
def fold (be : Bool) (d : List Byte) : List Byte :=
  nativeBytes32 be (nativeLoad32 be d 0 ^^^ nativeLoad32 be d 8)
    ++ nativeBytes32 be (nativeLoad32 be d 4 ^^^ nativeLoad32 be d 12)

/-- One byte of LOWER: `0x41..0x5A` moves up by `0x20`, every other byte stays (R172). -/
def lowerByte (b : Byte) : Byte := if 0x41#8 ≤ b ∧ b ≤ 0x5A#8 then b + 0x20#8 else b

/-- LOWER, the case-fold of the seed (R172). -/
def lower (bs : List Byte) : List Byte := bs.map lowerByte

/-- MASK7, the high bit of every byte stripped (R173). -/
def mask7 (bs : List Byte) : List Byte := bs.map fun b => b &&& 0x7F#8

/-- The scratch buffer of KEYCRUNCH: `MASK7(LOWER(seed) ++ pass)` (R174). -/
def crunchInput (seed pass : List Byte) : List Byte := mask7 (lower seed ++ pass)

/-- DigestOnK(m) (R177): INIT, UPDATE with `m`, then FINAL's PAD, TRAILER and OUTPUT, on the private context. -/
def digestOnK (be : Bool) (m : List Byte) (k : Context) : List Byte := (k.start.update be m).digest be

/-- The scratch buffer holds the concatenation (R175): `sn + pn ≤ SCRATCH_BYTES`. -/
def State.scratchFits (s : State) : Bool :=
  match s.cfg.scratchBytes with
  | none => true
  | some n => decide (s.srcLen.toNat + s.auxLen.toNat ≤ n)

/-- KEYCRUNCH (R174): checks the range of the three buffers, then their validity, then the scratch size; no
phase check. It runs on `K`, which it leaves wiped, and writes the 8 key bytes. -/
def execKeycrunch (s : State) : Host.Outcome State Fault Refusal :=
  s.attempt
    [(s.srcSpan.inRange && s.auxSpan.inRange && s.keySpan.inRange, .addrRange),
     (s.srcSpan.valid s.cfg .read && s.auxSpan.valid s.cfg .read && s.keySpan.valid s.cfg .write, .memFault),
     (s.scratchFits, .allocFail)]
    fun s =>
      { s with
        mem := s.keySpan.store s.mem
          (fold s.cfg.be
            (digestOnK s.cfg.be (crunchInput (s.srcSpan.load s.mem) (s.auxSpan.load s.mem)) s.kd))
        kd := s.kd.wipe }

/-- REHASH (R176): checks range and validity (read and write) of the key bytes; no phase check. The key bytes
are hashed as they stand, on `K`, and replaced in place. -/
def execRehash (s : State) : Host.Outcome State Fault Refusal :=
  s.attempt
    [(s.keySpan.inRange, .addrRange),
     (s.keySpan.valid s.cfg .read && s.keySpan.valid s.cfg .write, .memFault)]
    fun s =>
      { s with
        mem := s.keySpan.store s.mem (fold s.cfg.be (digestOnK s.cfg.be (s.keySpan.load s.mem) s.kd))
        kd := s.kd.wipe }

end Sys2Proof.Machine
end

