-- ==== Sys2Proof/Machine/Stream.lean ====
section
/-! DEFINITION. The four commands of the streaming context (42_stream.md): INIT, UPDATE, FINAL, WIPE. -/

namespace Sys2Proof.Machine

open Sys2Proof

/-- INIT (R141): accepted in every phase, no checks. -/
def execInit (s : State) : Host.Outcome State Fault Refusal :=
  s.attempt [] fun s => { s with ctx := s.ctx.start, phase := .empty }

/-- UPDATE (R144): checks phase, range and validity of the source buffer; then the message bytes enter the host
context and PHASE becomes 2. -/
def execUpdate (s : State) : Host.Outcome State Fault Refusal :=
  s.attempt
    [(s.live, .badPhase),
     (s.srcSpan.inRange, .addrRange),
     (s.srcSpan.valid s.cfg .read, .memFault)]
    fun s => { s with ctx := s.ctx.update s.cfg.be (s.srcSpan.load s.mem), phase := .accumulating }

/-- FINAL (R147): checks phase, range and validity of the 16 destination bytes; then the digest is written and the
context wiped. -/
def execFinal (s : State) : Host.Outcome State Fault Refusal :=
  s.attempt
    [(s.live, .badPhase),
     (s.digestSpan.inRange, .addrRange),
     (s.digestSpan.valid s.cfg .write, .memFault)]
    fun s =>
      { s with
        mem := s.digestSpan.store s.mem (s.ctx.digest s.cfg.be)
        ctx := s.ctx.wipe
        phase := .finalized }

/-- WIPE (R152): checks the phase; then wipes. MEM is not accessed. -/
def execWipe (s : State) : Host.Outcome State Fault Refusal :=
  s.attempt [(s.live, .badPhase)] fun s => { s with ctx := s.ctx.wipe, phase := .finalized }

end Sys2Proof.Machine
end

