-- ==== Sys2Proof/Machine/Dispatch.lean ====
section
/-! DEFINITION. One arm per command. -/

namespace Sys2Proof.Machine

open Sys2Proof

/-- The meaning of each command (30_encoding.md R81). -/
def exec (i : Instr) (s : State) : Host.Outcome State Fault Refusal :=
  match i with
  | .init => Sys2Proof.Machine.execInit s
  | .update => Sys2Proof.Machine.execUpdate s
  | .final => Sys2Proof.Machine.execFinal s
  | .wipe => Sys2Proof.Machine.execWipe s
  | .keycrunch => Sys2Proof.Machine.execKeycrunch s
  | .rehash => Sys2Proof.Machine.execRehash s

end Sys2Proof.Machine
end

