-- ==== Sys2Proof/Machine/RegPort.lean ====
section
/-! DEFINITION. The register port (10_state.md R27 to R31) and the host's other accesses. -/

namespace Sys2Proof.Machine

open Sys2Proof

/-- `RegWrite(0, w)` (10_state.md R28; 30_encoding.md R86): decode, then run the command; an illegal word is
refused before any other check (60_exceptions.md R192). -/
def launch (w : Word) (s : State) : Host.Outcome State Fault Refusal :=
  match decode w with
  | .ok i => exec i s
  | .error _ => .next (s.refuse .illegalCmd)

/-- `RegWrite(n, v)` for n in 0..7: 0 launches, 2..6 store, 1 and 7 are read-only and the write is ignored
(R28 to R31). -/
def State.regWrite (s : State) (n : Nat) (v : Word) : Host.Outcome State Fault Refusal :=
  if n = 0 then launch v s else .next (s.setOperand n v)

/-- `RegRead(n)` for n in 0..7: CMD reads 0, 1 is STATUS, 7 is CFG, 2..6 the operand registers (R28 to R31). -/
def State.regRead (s : State) (n : Nat) : Word :=
  match n with
  | 0 => 0
  | 1 => s.statusWord
  | 7 => s.cfgWord
  | n => s.operand n

/-- A register access of the machine: a number in 0..7 and a whole 32-bit word (R31). -/
def portCheck (n width : Nat) : Option Fault :=
  if n ≥ 8 then some (.noSuchRegister n) else if width ≠ 32 then some (.notWholeWord width) else none

/-- How many bytes at `DST_ADDR` a command writes (20_memory.md R52). -/
def destBytes : Instr → Nat
  | .init => 0
  | .update => 0
  | .final => 16
  | .wipe => 0
  | .keycrunch => 8
  | .rehash => 8

/-- MEM after the command in `w` was cut short by reset (70_reset_and_hazards.md R220, U4): each destination
byte is the old one or the one the command would have written, which of them a free value says (log entry 6). A
command that would have been refused writes nothing. -/
def State.cutMemory (s : State) (w : Word) : Memory :=
  match decode w with
  | .error _ => s.mem
  | .ok i =>
    match exec i s with
    | .next t =>
      if t.err = .ok then
        Memory.mixBytes s.mem t.mem (Config.cutWrote s.freeCount) s.dstAddr.toNat 0 (destBytes i)
      else s.mem
    | .fault _ => s.mem
    | .refused _ => s.mem

/-- The host's access leaves the front of the list; unless it is a read it returns nothing. -/
def State.takeAccess (s : State) (rest : List HostAccess) : State := { s with host := rest, reply := none }

/-- What one access of the host does (00_scope.md R6; 20_memory.md R64). -/
def perform (a : HostAccess) (s : State) : Host.Outcome State Fault Refusal :=
  match a with
  | .regWrite n width v =>
    match portCheck n width with
    | some f => .fault f
    | none => s.regWrite n v
  | .regRead n width =>
    match portCheck n width with
    | some f => .fault f
    | none => .next { s with reply := some (.word (s.regRead n)) }
  | .memStore addr b => .next { s with mem := s.mem.write addr.toNat b }
  | .memLoad addr => .next { s with reply := some (.byte (s.mem.read addr.toNat)) }
  | .reset => .next s.resetEngine
  | .cutCommand w => .next { s.resetEngine with mem := s.cutMemory w, freeCount := s.freeCount + 1 }

end Sys2Proof.Machine
end

