-- ==== Sys2Proof/Machine/Step.lean ====
section
/-! DEFINITION. One step: the host's next access (00_scope.md R2, R6). -/

namespace Sys2Proof.Machine

open Sys2Proof

/-- One step. The engine takes the host's next access; when the host makes none it is idle and holds its state
(00_scope.md R6; 60_exceptions.md R208). -/
def step (s : State) : Host.Outcome State Fault Refusal :=
  match s.host with
  | [] => .next s
  | a :: rest => perform a (s.takeAccess rest)

/-- `s` with a write of the command word `w` to CMD as the host's very next access: the engine fetches nothing
(20_memory.md R66), so this is where its next command comes from (log entry 2). -/
def State.withFetchWord (s : State) (nbits w : Nat) : State :=
  { s with host := .regWrite 0 32 (BitVec.ofNat 32 (w % 2 ^ nbits)) :: s.host }

end Sys2Proof.Machine
end

