-- ==== Sys2Proof/Safety.lean ====
section
/-! DEFINITION. The terms the statements use: the digest and the key free of `BE` (42_stream.md R153, 43_otp.md R171),
what it means that a context holds a message (R155), when a command executes, and the invariant of every step. -/

namespace Sys2Proof.Machine

open Sys2Proof

/-! ### The digest, free of `BE` -/

/-- The sixteen words `X[i] = LE32(B[4i], .., B[4i+3])` of a 64-byte block (R153). -/
def leWords (block : List Byte) : List Word :=
  (List.range 16).map fun i =>
    le32 (block.getD (4 * i) 0) (block.getD (4 * i + 1) 0) (block.getD (4 * i + 2) 0) (block.getD (4 * i + 3) 0)

/-- `S <- COMPRESS(S, X)` for each of the first `k` 64-byte blocks of `bs` (R153). -/
def foldBlocks : Nat → Lanes → List Byte → Lanes
  | 0, S, _ => S
  | k + 1, S, bs => foldBlocks k (compress S (leWords (bs.take 64))) (bs.drop 64)

/-- `Pad(M)` (R153): `0x80`, zeros, and the bit length modulo `2^64`, low half first, as little-endian words. -/
def padMessage (m : List Byte) : List Byte :=
  m ++ [0x80#8] ++ List.replicate ((119 - m.length % 64) % 64) 0#8
    ++ leBytes32 (BitVec.ofNat 32 (8 * m.length)) ++ leBytes32 (BitVec.ofNat 32 (8 * m.length / 2 ^ 32))

/-- `le_bytes32(S[0]) ++ .. ++ le_bytes32(S[3])` (20_memory.md R53 b). -/
def stateBytes (S : Lanes) : List Byte := leBytes32 S.a ++ leBytes32 S.b ++ leBytes32 S.c ++ leBytes32 S.d

/-- `MD4(M)` (R153). -/
def md4 (m : List Byte) : List Byte :=
  stateBytes (foldBlocks ((padMessage m).length / 64) initialState (padMessage m))

/-- FOLD byte by byte (43_otp.md R171). -/
def foldBytes (d : List Byte) : List Byte := List.zipWith (· ^^^ ·) (d.take 8) (d.drop 8)

/-- The bytes waiting in the buffer of a context: `in[0 .. n-1]` (10_state.md R23). -/
def Context.pendingBytes (c : Context) : List Byte := c.buf.bytes.take c.pending

/-- The bit counter as one number (10_state.md R22). -/
def Context.bits (c : Context) : Nat := c.bitsLo.toNat + 2 ^ 32 * c.bitsHi.toNat

/-- What UPDATE maintains (R155): after the message `m` since INIT, the counter is its bit length modulo `2^64`,
the buffer starts with its last bytes, un-normalized, and `H` folds its complete blocks. The stale tail is free. -/
structure Context.Holds (c : Context) (m : List Byte) : Prop where
  bits_eq : c.bits = 8 * m.length % 2 ^ 64
  pending_eq : c.pendingBytes = m.drop (64 * (m.length / 64))
  h_eq : c.h = foldBlocks (m.length / 64) initialState m

/-- The state words FINAL ends with, from the context it starts with, in one or two compressions (R148, R149):
the waiting bytes, `0x80` and zeros as little-endian words, and the two halves of the counter as the last two words
as numbers. -/
def Context.finalState (c : Context) : Lanes :=
  let block := c.pendingBytes ++ [0x80#8] ++ List.replicate (63 - c.pending) 0#8
  if c.pending < 56 then compress c.h ((leWords block).take 14 ++ [c.bitsLo, c.bitsHi])
  else compress (compress c.h (leWords block)) (List.replicate 14 0#32 ++ [c.bitsLo, c.bitsHi])

/-- One round on the rotating tuple of 41_compress.md R123. -/
def rotatingRound (X : List Word) (v : Word × Word × Word × Word) (row : RoundRow) : Word × Word × Word × Word :=
  (v.2.2.2, rotl32 (v.1 + applyMix row.mix v.2.1 v.2.2.1 v.2.2.2 + X.getD row.word 0 + row.const) row.rot,
    v.2.1, v.2.2.1)

/-! ### When a command executes -/

/-- The three conditions under which UPDATE completes (R144). -/
structure State.UpdateReady (s : State) : Prop where
  live : s.phase ≠ .finalized
  range : s.srcLen.toNat = 0 ∨ s.srcAddr.toNat + s.srcLen.toNat ≤ 2 ^ 32
  valid : ∀ i, i < s.srcLen.toNat → memValid s.cfg (s.srcAddr.toNat + i) .read = true

/-- The three conditions under which FINAL completes (R147). -/
structure State.FinalReady (s : State) : Prop where
  live : s.phase ≠ .finalized
  range : s.dstAddr.toNat + 16 ≤ 2 ^ 32
  valid : ∀ i, i < 16 → memValid s.cfg (s.dstAddr.toNat + i) .write = true

/-- The conditions under which KEYCRUNCH completes (R174, R175); PHASE is none of them. -/
structure State.CrunchReady (s : State) : Prop where
  seedRange : s.srcLen.toNat = 0 ∨ s.srcAddr.toNat + s.srcLen.toNat ≤ 2 ^ 32
  passRange : s.auxLen.toNat = 0 ∨ s.auxAddr.toNat + s.auxLen.toNat ≤ 2 ^ 32
  keyRange : s.dstAddr.toNat + 8 ≤ 2 ^ 32
  seedValid : ∀ i, i < s.srcLen.toNat → memValid s.cfg (s.srcAddr.toNat + i) .read = true
  passValid : ∀ i, i < s.auxLen.toNat → memValid s.cfg (s.auxAddr.toNat + i) .read = true
  keyValid : ∀ i, i < 8 → memValid s.cfg (s.dstAddr.toNat + i) .write = true
  fits : ∀ n, s.cfg.scratchBytes = some n → s.srcLen.toNat + s.auxLen.toNat ≤ n

/-- The conditions under which REHASH completes (R176); PHASE is none of them. -/
structure State.RehashReady (s : State) : Prop where
  range : s.dstAddr.toNat + 8 ≤ 2 ^ 32
  readable : ∀ i, i < 8 → memValid s.cfg (s.dstAddr.toNat + i) .read = true
  writable : ∀ i, i < 8 → memValid s.cfg (s.dstAddr.toNat + i) .write = true

/-- The seed that KEYCRUNCH reads. -/
def State.seed (s : State) : List Byte := s.mem.readBytes s.srcAddr.toNat s.srcLen.toNat

/-- The passphrase that KEYCRUNCH reads. -/
def State.passphrase (s : State) : List Byte := s.mem.readBytes s.auxAddr.toNat s.auxLen.toNat

/-- The message bytes that UPDATE reads. -/
def State.message (s : State) : List Byte := s.mem.readBytes s.srcAddr.toNat s.srcLen.toNat

/-- The key that REHASH reads. -/
def State.key (s : State) : List Byte := s.mem.readBytes s.dstAddr.toNat 8

/-! ### Command sequences (42_stream.md R153, R154) -/

/-- The outcome of `next` continued, a fault or a refusal kept. -/
def andThen (o : Host.Outcome State Fault Refusal) (f : State → Host.Outcome State Fault Refusal) :
    Host.Outcome State Fault Refusal :=
  match o with
  | .next s => f s
  | .fault r => .fault r
  | .refused r => .refused r

/-- UPDATE once for each chunk `(address, length)`, its operands written before it. -/
def feed : List (Word × Word) → State → Host.Outcome State Fault Refusal
  | [], s => .next s
  | (a, n) :: chunks, s => andThen (exec .update { s with srcAddr := a, srcLen := n }) (feed chunks)

/-- `INIT; UPDATE(m_1); ..; UPDATE(m_k); FINAL(dst)` (R153). -/
def digestSequence (chunks : List (Word × Word)) (dst : Word) (s : State) : Host.Outcome State Fault Refusal :=
  andThen (exec .init s) fun s1 =>
    andThen (feed chunks s1) fun s2 => exec .final { s2 with dstAddr := dst }

/-- A chunk that the engine may read. -/
def State.chunkOk (s : State) (p : Word × Word) : Prop :=
  (p.2.toNat = 0 ∨ p.1.toNat + p.2.toNat ≤ 2 ^ 32) ∧
    ∀ i, i < p.2.toNat → memValid s.cfg (p.1.toNat + i) .read = true

/-- The concatenation `m_1 ++ .. ++ m_k` of the chunks' bytes. -/
def State.chunkBytes (s : State) (chunks : List (Word × Word)) : List Byte :=
  chunks.flatMap fun p => s.mem.readBytes p.1.toNat p.2.toNat

/-! ### Invariants and relations -/

/-- The invariant of every step: MEM is in canonical form; `PHASE = 0` only with a zero context (10_state.md
R26); `K` is zero between commands (R34); `bits[0][2:0] = 0` (R22); an error code stands only where STICKY is
set (R29, R40). -/
structure State.Inv (s : State) : Prop where
  mem_wf : s.mem.wf = true
  wiped : s.phase = .finalized → s.ctx = Context.zero
  kd_zero : s.kd = Context.zero
  whole_bytes : s.ctx.bitsLo.toNat % 8 = 0
  sticky_err : s.err ≠ .ok → s.sticky = true

/-- Two machines that differ at most in `BE`, in the stale tail of the host context's buffer, in the private
context `K`, and in what the latest access returned. -/
structure State.SameButOrder (s t : State) : Prop where
  scratch : s.cfg.scratchBytes = t.cfg.scratchBytes
  holes : s.cfg.holes = t.cfg.holes
  h : s.ctx.h = t.ctx.h
  bitsLo : s.ctx.bitsLo = t.ctx.bitsLo
  bitsHi : s.ctx.bitsHi = t.ctx.bitsHi
  pending : s.ctx.pendingBytes = t.ctx.pendingBytes
  phase : s.phase = t.phase
  srcAddr : s.srcAddr = t.srcAddr
  srcLen : s.srcLen = t.srcLen
  auxAddr : s.auxAddr = t.auxAddr
  auxLen : s.auxLen = t.auxLen
  dstAddr : s.dstAddr = t.dstAddr
  err : s.err = t.err
  sticky : s.sticky = t.sticky
  mem : s.mem = t.mem
  host : s.host = t.host
  freeCount : s.freeCount = t.freeCount

/-- The host's next access is a CMD write of the word `w`, completed or cut short by reset. -/
def State.nextIsCommand (s : State) (w : Word) : Prop :=
  (∃ rest, s.host = .regWrite 0 32 w :: rest) ∨ (∃ rest, s.host = .cutCommand w :: rest)

end Sys2Proof.Machine
end

