-- ==== Sys2Proof/Certificates/Slice0/Obligations.lean ====
section
/-! DEFINITION. The statements for the provers, from the numbered rules of the spec. -/

open Sys2Proof Sys2Proof.Machine

/-! ### The command word -/

/-- 30_encoding.md R81: the row whose match is `w & mask` is the command that `w` decodes to, and no other word
decodes to it. -/
def Obligations.DecodeFollowsOpcodeMap : Prop :=
  ∀ (w : Word) (i : Instr), decode w = .ok i ↔ ∃ row ∈ opcodeMap, w &&& row.2.1 = row.1 ∧ row.2.2 = i

/-- 30_encoding.md R81, R84: decoding and encoding are each other's inverse on the six commands. -/
def Obligations.DecodeInvertsEncode : Prop :=
  (∀ i : Instr, decode (encode i) = .ok i) ∧ ∀ (w : Word) (i : Instr), decode w = .ok i → w = encode i

/-- 30_encoding.md R81: four command words as the opcode map prints them, the zero word and a word with a bit above
the opcode. -/
def Obligations.PrintedWordsDecode : Prop :=
  decode 0x00000001#32 = .ok .init ∧ decode 0x00000003#32 = .ok .final ∧ decode 0x00000005#32 = .ok .keycrunch
    ∧ decode 0x00000006#32 = .ok .rehash ∧ decode 0x00000000#32 = .error .unassignedOpcode
    ∧ decode 0x00000102#32 = .error .nonzeroUpper

/-- 60_exceptions.md R192, 30_encoding.md R84: a CMD write of a word with `w[31:8] ≠ 0`, or with `w[7:0]` equal to `0x00`
or in `0x07..0xFF`, is refused with ERR_ILLEGAL_CMD and has no other effect. -/
def Obligations.IllegalWordsAreRefused : Prop :=
  ∀ (s : State) (w : Word) (rest : List HostAccess), s.host = .regWrite 0 32 w :: rest →
    (w.extractLsb' 8 24 ≠ 0 ∨ w.extractLsb' 0 8 = 0 ∨ 0x07#8 ≤ w.extractLsb' 0 8) →
    step s = .next { s with host := rest, reply := none, err := .illegalCmd, sticky := true }

/-! ### The step -/

/-- A CMD write of a word that decodes to `i` runs `i`: the step is `exec i` after the access has left the host's list
and nothing has been returned to the host. -/
def Obligations.StepRunsDecodedCommand : Prop :=
  ∀ (s : State) (w : Word) (i : Instr) (rest : List HostAccess),
    s.host = .regWrite 0 32 w :: rest → decode w = .ok i →
    step s = exec i { s with host := rest, reply := none }

/-- 00_scope.md R6: with no access of the host the engine does nothing. -/
def Obligations.IdleEngineHoldsItsState : Prop := ∀ s : State, s.host = [] → step s = .next s

/-- 60_exceptions.md R190, R203; 70_reset_and_hazards.md R234: every access of the machine has a next state, whatever the
state; the engine neither hangs nor stops. -/
def Obligations.EveryAccessCompletes : Prop :=
  ∀ s : State, (∀ a rest, s.host = a :: rest → a.wellFormed = true) → ∃ t, step s = .next t

/-- 10_state.md R31; 93_implementation_defined.md U7: an access to a register number outside 0..7, and otherwise one that
is not 32 bits wide, is no step of the machine. -/
def Obligations.AccessesOutsideThePortStop : Prop :=
  ∀ (s : State) (n width : Nat) (v : Word) (rest : List HostAccess),
    (s.host = .regWrite n width v :: rest ∨ s.host = .regRead n width :: rest) →
    (8 ≤ n → step s = .fault (.noSuchRegister n)) ∧
    (n < 8 → width ≠ 32 → step s = .fault (.notWholeWord width))

/-! ### Reset, configuration, invariants -/

/-- 10_state.md R38: what reset leaves, for each configuration, whatever the state before. MEM is not the engine's and is
unchanged. -/
def Obligations.ResetLeavesZeros : Prop :=
  ∀ (s : State) (rest : List HostAccess), s.host = .reset :: rest → ∃ t, step s = .next t ∧
    t.ctx.h = ⟨0, 0, 0, 0⟩ ∧ t.ctx.bitsLo = 0 ∧ t.ctx.bitsHi = 0 ∧ t.ctx.buf.bytes = List.replicate 64 0 ∧
    t.phase = .finalized ∧ t.srcAddr = 0 ∧ t.srcLen = 0 ∧ t.auxAddr = 0 ∧ t.auxLen = 0 ∧ t.dstAddr = 0 ∧
    t.err = .ok ∧ t.sticky = false ∧ t.kd.h = ⟨0, 0, 0, 0⟩ ∧ t.kd.bitsLo = 0 ∧ t.kd.bitsHi = 0 ∧
    t.kd.buf.bytes = List.replicate 64 0 ∧ t.cfg = s.cfg ∧ t.cfgWord = (if s.cfg.be then 1 else 0) ∧ t.mem = s.mem

/-- The invariant of every step holds after reset, for every configuration. -/
def Obligations.ResetMeetsTheInvariant : Prop := ∀ cfg : Config, (State.resetWith cfg).Inv

/-- 10_state.md R22, R26, R34, R40: the invariant is kept by every step: MEM in canonical form, PHASE 0 only with a zero
context, K zero, the bit counter a multiple of 8, an error code only with STICKY. -/
def Obligations.StepKeepsTheInvariant : Prop := ∀ s t : State, s.Inv → step s = .next t → t.Inv

/-- 00_scope.md R5: no step changes the configuration. -/
def Obligations.StepKeepsTheConfiguration : Prop := ∀ s t : State, step s = .next t → t.cfg = s.cfg

/-! ### The register port -/

/-- 10_state.md R28 to R31: what each register read returns; a read changes nothing. -/
def Obligations.RegisterReads : Prop :=
  ∀ (s : State) (n : Nat) (rest : List HostAccess), s.host = .regRead n 32 :: rest → n < 8 →
    ∃ v, step s = .next { s with host := rest, reply := some (.word v) } ∧
      v = if n = 0 then 0
        else if n = 1 then BitVec.ofNat 32 (s.phase.code + 4 * s.err.code + 64 * s.sticky.toNat)
        else if n = 2 then s.srcAddr else if n = 3 then s.srcLen else if n = 4 then s.auxAddr
        else if n = 5 then s.auxLen else if n = 6 then s.dstAddr else if s.cfg.be then 1 else 0

/-- 10_state.md R29 to R31: writes of 2..6 store all 32 bits and have no other effect, writes of STATUS and CFG are
ignored. -/
def Obligations.RegisterWrites : Prop :=
  ∀ (s : State) (n : Nat) (v : Word) (rest : List HostAccess), s.host = .regWrite n 32 v :: rest →
    (n = 1 ∨ n = 7 → step s = .next { s with host := rest, reply := none }) ∧
    (n = 2 → step s = .next { s with host := rest, reply := none, srcAddr := v }) ∧
    (n = 3 → step s = .next { s with host := rest, reply := none, srcLen := v }) ∧
    (n = 4 → step s = .next { s with host := rest, reply := none, auxAddr := v }) ∧
    (n = 5 → step s = .next { s with host := rest, reply := none, auxLen := v }) ∧
    (n = 6 → step s = .next { s with host := rest, reply := none, dstAddr := v })

/-- 10_state.md R29, R25; 60_exceptions.md R191: the fields of STATUS, the values they never take, and the zero bits. -/
def Obligations.StatusFields : Prop :=
  ∀ s : State, (s.statusWord.extractLsb' 0 2).toNat = s.phase.code ∧ s.phase.code ≠ 3 ∧
    (s.statusWord.extractLsb' 2 4).toNat = s.err.code ∧ s.err.code ≤ 5 ∧
    s.statusWord.getLsbD 6 = s.sticky ∧ s.statusWord.extractLsb' 7 25 = 0

/-- 10_state.md R40: what a CMD write does to ERR and STICKY, that the other register accesses change neither, that no
command reads them, and that only reset clears STICKY. -/
def Obligations.ErrAndStickyRule : Prop :=
  (∀ (s t : State) (w : Word), launch w s = .next t →
    (t.err = .ok ∧ t.sticky = s.sticky) ∨ (t.err ≠ .ok ∧ t.sticky = true)) ∧
  (∀ (s t : State) (n width : Nat) (v : Word) (rest : List HostAccess),
    (s.host = .regWrite n width v :: rest ∧ n ≠ 0) ∨ s.host = .regRead n width :: rest → step s = .next t →
    t.err = s.err ∧ t.sticky = s.sticky) ∧
  (∀ (s t : State) (w : Word) (e : ErrCode) (k : Bool), launch w s = .next t →
    launch w { s with err := e, sticky := k } =
      .next { t with sticky := if t.err = .ok then k else true }) ∧
  (∀ s t : State, step s = .next t → s.sticky = true → t.sticky = false →
    (∃ rest, s.host = .reset :: rest) ∨ ∃ w rest, s.host = .cutCommand w :: rest)

/-! ### Refusals and the lifecycle -/

/-- 60_exceptions.md R190: a CMD write of any word has a next state, and it either completes or is refused; a refusal changes
ERR and STICKY and nothing else. -/
def Obligations.RefusalChangesNothingElse : Prop :=
  ∀ (w : Word) (s : State), ∃ t, launch w s = .next t ∧
    (t.err = .ok ∨ ∃ code, code ≠ .ok ∧ t = { s with err := code, sticky := true })

/-- 60_exceptions.md R198: the code reported is the first in the one priority order: an illegal word before everything else,
then for each command the checks of its rule, with the address sums taken in the naturals. -/
def Obligations.RefusalPriority : Prop :=
  ∀ s : State,
    let src := s.srcLen.toNat = 0 ∨ s.srcAddr.toNat + s.srcLen.toNat ≤ 2 ^ 32
    let aux := s.auxLen.toNat = 0 ∨ s.auxAddr.toNat + s.auxLen.toNat ≤ 2 ^ 32
    let srcOk := ∀ i, i < s.srcLen.toNat → memValid s.cfg (s.srcAddr.toNat + i) .read = true
    let auxOk := ∀ i, i < s.auxLen.toNat → memValid s.cfg (s.auxAddr.toNat + i) .read = true
    let dstOk := fun n kind => ∀ i, i < n → memValid s.cfg (s.dstAddr.toNat + i) kind = true
    (∀ w e t, decode w = .error e → launch w s = .next t → t.err = .illegalCmd) ∧
    (∀ t, exec .init s = .next t → t.err = .ok) ∧
    (∀ t, exec .update s = .next t →
      (s.phase = .finalized → t.err = .badPhase) ∧
      (s.phase ≠ .finalized → ¬ src → t.err = .addrRange) ∧
      (s.phase ≠ .finalized → src → ¬ srcOk → t.err = .memFault) ∧
      (s.phase ≠ .finalized → src → srcOk → t.err = .ok)) ∧
    (∀ t, exec .final s = .next t →
      (s.phase = .finalized → t.err = .badPhase) ∧
      (s.phase ≠ .finalized → ¬ s.dstAddr.toNat + 16 ≤ 2 ^ 32 → t.err = .addrRange) ∧
      (s.phase ≠ .finalized → s.dstAddr.toNat + 16 ≤ 2 ^ 32 → ¬ dstOk 16 .write → t.err = .memFault) ∧
      (s.phase ≠ .finalized → s.dstAddr.toNat + 16 ≤ 2 ^ 32 → dstOk 16 .write → t.err = .ok)) ∧
    (∀ t, exec .wipe s = .next t →
      (s.phase = .finalized → t.err = .badPhase) ∧ (s.phase ≠ .finalized → t.err = .ok)) ∧
    (∀ t, exec .keycrunch s = .next t →
      let range := src ∧ aux ∧ s.dstAddr.toNat + 8 ≤ 2 ^ 32
      let valid := srcOk ∧ auxOk ∧ dstOk 8 .write
      let fits := ∀ n, s.cfg.scratchBytes = some n → s.srcLen.toNat + s.auxLen.toNat ≤ n
      (¬ range → t.err = .addrRange) ∧ (range → ¬ valid → t.err = .memFault) ∧
      (range → valid → ¬ fits → t.err = .allocFail) ∧ (range → valid → fits → t.err = .ok)) ∧
    (∀ t, exec .rehash s = .next t →
      let range := s.dstAddr.toNat + 8 ≤ 2 ^ 32
      let valid := dstOk 8 .read ∧ dstOk 8 .write
      (¬ range → t.err = .addrRange) ∧ (range → ¬ valid → t.err = .memFault) ∧
      (range → valid → t.err = .ok))

/-- 42_stream.md R140: the lifecycle table. A refused command leaves PHASE; otherwise INIT goes to 1, UPDATE to 2, FINAL and
WIPE to 0, KEYCRUNCH and REHASH leave it; INIT is never refused, and in phase 0 UPDATE, FINAL and WIPE are refused with
ERR_BAD_PHASE. -/
def Obligations.LifecycleTable : Prop :=
  ∀ (i : Instr) (s t : State), exec i s = .next t →
    (t.err ≠ .ok → t.phase = s.phase) ∧
    (t.err = .ok → t.phase = match i with
      | .init => .empty
      | .update => .accumulating
      | .final => .finalized
      | .wipe => .finalized
      | .keycrunch => s.phase
      | .rehash => s.phase) ∧
    (i = .init → t.err = .ok) ∧
    (i = .update ∨ i = .final ∨ i = .wipe → s.phase = .finalized → t.err = .badPhase) ∧
    (i = .wipe → s.phase ≠ .finalized → t.err = .ok)

/-- 42_stream.md R140, 70_reset_and_hazards.md R225: a machine with no live context gets one only by a CMD write of INIT. -/
def Obligations.OnlyInitStartsAContext : Prop :=
  ∀ s t : State, step s = .next t → s.phase = .finalized → t.phase ≠ .finalized →
    ∃ rest, s.host = .regWrite 0 32 0x00000001#32 :: rest

/-- 10_state.md R25: EMPTY and ACCUMULATING differ in nothing but the report in STATUS: from both, every command does the same,
up to the PHASE it leaves where it does not write one. -/
def Obligations.EmptyAndAccumulatingBehaveAlike : Prop :=
  ∀ (i : Instr) (s t : State), exec i { s with phase := .empty } = .next t →
    ∃ p : Phase, exec i { s with phase := .accumulating } = .next { t with phase := p } ∧
      (p = t.phase ∨ (t.phase = .empty ∧ p = .accumulating))

/-! ### Frames -/

/-- INIT, UPDATE and WIPE: every register of the port but STATUS, the configuration, the private context, the host's side
and every byte of MEM are unchanged (20_memory.md R52; 10_state.md R27). -/
def Obligations.FrameOfCommandsThatStoreNothing : Prop :=
  ∀ (i : Instr) (s t : State), i = .init ∨ i = .update ∨ i = .wipe → exec i s = .next t →
    t.srcAddr = s.srcAddr ∧ t.srcLen = s.srcLen ∧ t.auxAddr = s.auxAddr ∧ t.auxLen = s.auxLen ∧
    t.dstAddr = s.dstAddr ∧ t.cfg = s.cfg ∧ t.kd = s.kd ∧ t.host = s.host ∧ t.reply = s.reply ∧
    t.freeCount = s.freeCount ∧ t.sticky = (s.sticky || decide (t.err ≠ .ok)) ∧ ∀ a, t.mem.read a = s.mem.read a

/-- FINAL: every register of the port but STATUS, the configuration, the private context, the host's side and every byte of
MEM outside the 16 bytes at DST_ADDR are unchanged (20_memory.md R52; 10_state.md R27). -/
def Obligations.FrameOfFinal : Prop :=
  ∀ s t : State, exec .final s = .next t →
    t.srcAddr = s.srcAddr ∧ t.srcLen = s.srcLen ∧ t.auxAddr = s.auxAddr ∧ t.auxLen = s.auxLen ∧
    t.dstAddr = s.dstAddr ∧ t.cfg = s.cfg ∧ t.kd = s.kd ∧ t.host = s.host ∧ t.reply = s.reply ∧
    t.freeCount = s.freeCount ∧ t.sticky = (s.sticky || decide (t.err ≠ .ok)) ∧
    ∀ a, a < s.digestSpan.addr.toNat ∨ s.digestSpan.addr.toNat + 16 ≤ a → t.mem.read a = s.mem.read a

/-- KEYCRUNCH and REHASH: the host context, PHASE, every register of the port but STATUS, the configuration, the host's side
and every byte of MEM outside the 8 bytes at DST_ADDR are unchanged (43_otp.md R174, R176, R177). -/
def Obligations.FrameOfKeyCommands : Prop :=
  ∀ (i : Instr) (s t : State), i = .keycrunch ∨ i = .rehash → exec i s = .next t →
    t.ctx = s.ctx ∧ t.phase = s.phase ∧
    t.srcAddr = s.srcAddr ∧ t.srcLen = s.srcLen ∧ t.auxAddr = s.auxAddr ∧ t.auxLen = s.auxLen ∧
    t.dstAddr = s.dstAddr ∧ t.cfg = s.cfg ∧ t.host = s.host ∧ t.reply = s.reply ∧
    t.freeCount = s.freeCount ∧ t.sticky = (s.sticky || decide (t.err ≠ .ok)) ∧ (t.err = .ok → t.kd = Context.zero) ∧
    (t.err ≠ .ok → t.kd = s.kd) ∧
    ∀ a, a < s.keySpan.addr.toNat ∨ s.keySpan.addr.toNat + 8 ≤ a → t.mem.read a = s.mem.read a

/-- 10_state.md R27: a step changes an operand register only where the host writes it or resets the engine. -/
def Obligations.OperandRegistersChangeOnlyByTheHost : Prop :=
  ∀ (s t : State) (n : Nat), step s = .next t → 2 ≤ n → n ≤ 6 → t.operand n ≠ s.operand n →
    (∃ v rest, s.host = .regWrite n 32 v :: rest ∧ t.operand n = v) ∨ (∃ rest, s.host = .reset :: rest) ∨
      ∃ w rest, s.host = .cutCommand w :: rest

/-- 43_otp.md R177, 42_stream.md R153, 10_state.md R39: a step changes the host context or PHASE only where the host writes the
word of INIT, UPDATE, FINAL or WIPE to CMD, or resets the engine. So anything else may stand between the commands of one digest. -/
def Obligations.ContextChangesOnlyByItsCommands : Prop :=
  ∀ s t : State, step s = .next t → t.ctx ≠ s.ctx ∨ t.phase ≠ s.phase →
    (∃ (i : Instr) (rest : List HostAccess), s.host = .regWrite 0 32 (encode i) :: rest ∧ t.err = .ok ∧
      i ≠ .keycrunch ∧ i ≠ .rehash) ∨
    (∃ rest, s.host = .reset :: rest) ∨ ∃ w rest, s.host = .cutCommand w :: rest

/-! ### Memory -/

/-- 20_memory.md R51: MemWrite sets the bytes of its range and no other cell, MemRead returns them; the canonical form of
the model's MEM is kept. -/
def Obligations.MemoryReadsWhatWasWritten : Prop :=
  ∀ (m : Memory) (a : Nat) (bs : List Byte), m.wf = true → a + bs.length ≤ 2 ^ 32 →
    (m.writeBytes a bs).readBytes a bs.length = bs ∧ (m.writeBytes a bs).wf = true ∧
    ∀ x, x < a ∨ a + bs.length ≤ x → (m.writeBytes a bs).read x = m.read x

/-- 20_memory.md R64 (c), (d): a byte that the host stored is what a command's MemRead of it returns, and what the host loads
next. -/
def Obligations.HostStoresAreSeen : Prop :=
  ∀ (s : State) (addr : Word) (b : Byte) (rest : List HostAccess), s.mem.wf = true →
    s.host = .memStore addr b :: .memLoad addr :: rest →
    ∃ t u, step s = .next t ∧ step t = .next u ∧ u.reply = some (.byte b) ∧ t.mem.readBytes addr.toNat 1 = [b]

/-! ### The byte-order normalizer -/

/-- 40_byte_order.md R104: NORMALIZE is an involution, for both values of BE. -/
def Obligations.NormalizeIsAnInvolution : Prop :=
  ∀ (be : Bool) (n : Nat) (buf : List Byte), normalizeWords be n (normalizeWords be n buf) = buf

/-- 40_byte_order.md R105: the native word of a normalized buffer is the little-endian reading of the original bytes, and a
natively stored word that is then normalized is its little-endian bytes, for both values of BE. -/
def Obligations.NormalizedWordsAreLittleEndian : Prop :=
  ∀ (be : Bool) (n : Nat) (buf : List Byte) (i : Nat), 4 * n ≤ buf.length → i < n →
    nativeLoad32 be (normalizeWords be n buf) (4 * i) =
      le32 (buf.getD (4 * i) 0) (buf.getD (4 * i + 1) 0) (buf.getD (4 * i + 2) 0) (buf.getD (4 * i + 3) 0) ∧
    ∀ v : Word, ((normalizeWords be n (nativeStore32 be (4 * i) v buf)).drop (4 * i)).take 4 = leBytes32 v

/-- 40_byte_order.md R106: the trailer words are loaded as the numbers that were stored, for both values of BE, and a word
that is not touched by the stores is not touched. -/
def Obligations.TrailerWordsArriveAsNumbers : Prop :=
  ∀ (be : Bool) (b : Buffer) (lo hi : Word),
    nativeLoad32 be ((b.store32 be 56 lo).store32 be 60 hi).bytes 56 = lo ∧
    nativeLoad32 be ((b.store32 be 56 lo).store32 be 60 hi).bytes 60 = hi ∧
    ((b.store32 be 56 lo).store32 be 60 hi).bytes.take 56 = b.bytes.take 56

/-! ### The compression core -/

/-- 41_compress.md R123: COMPRESS in the formulation with a rotating tuple. -/
def Obligations.CompressIsTheRotatingForm : Prop :=
  ∀ (S : Lanes) (X : List Word),
    let v := schedule.foldl (rotatingRound X) (S.a, S.b, S.c, S.d)
    compress S X = ⟨S.a + v.1, S.b + v.2.1, S.c + v.2.2.1, S.d + v.2.2.2⟩

/-- 41_compress.md R111, R112, R113: the mixing functions bit by bit, and their equal forms. -/
def Obligations.MixingFunctionsBitByBit : Prop :=
  ∀ (x y z : Word),
    (∀ j, j < 32 → (mixF x y z).getLsbD j = (if x.getLsbD j then y.getLsbD j else z.getLsbD j) ∧
      (mixG x y z).getLsbD j = ((x.getLsbD j && y.getLsbD j) || (x.getLsbD j && z.getLsbD j) || (y.getLsbD j && z.getLsbD j)) ∧
      (mixH x y z).getLsbD j = ((x.getLsbD j ^^ y.getLsbD j) ^^ z.getLsbD j)) ∧
    mixF x y z = z ^^^ (x &&& (y ^^^ z)) ∧ mixG x y z = (x &&& y) ||| (z &&& (x ||| y))

/-- 41_compress.md R122, 00_scope.md R8: rotation loses no bit: bit `j` goes to bit `j + s` modulo 32. -/
def Obligations.RotationMovesEveryBit : Prop :=
  ∀ (x : Word) (s j : Nat), 1 ≤ s → s ≤ 31 → j < 32 → (rotl32 x s).getLsbD ((j + s) % 32) = x.getLsbD j

/-- 41_compress.md R116, R117, R119: the word orders in closed form, each pass using every block word once. -/
def Obligations.WordOrdersInClosedForm : Prop :=
  (∀ i, i < 16 → wordOrder2.getD i 0 = 4 * (i % 4) + i / 4) ∧
  (∀ i, i < 16 → wordOrder3.getD i 0 = 8 * (i % 2) + 4 * (i / 2 % 2) + 2 * (i / 4 % 2) + i / 8) ∧
  (∀ p, p < 3 → (((schedule.drop (16 * p)).take 16).map RoundRow.word).Perm (List.range 16))

/-! ### The bit counter -/

/-- 42_stream.md R142: ADVANCE on the two halves, with `lo = len << 3`, the carry of the sum taken in the naturals, and
`len >> 29`; the carry test is equivalent to "the new `bits[0]` is smaller than the old one". -/
def Obligations.AdvanceCarriesIntoTheHighHalf : Prop :=
  ∀ (c : Context) (len : Word),
    let lo : Word := len <<< 3
    let carries : Prop := c.bitsLo.toNat + lo.toNat ≥ 2 ^ 32
    (c.advance len.toNat).bitsLo = c.bitsLo + lo ∧
    (carries → (c.advance len.toNat).bitsHi = c.bitsHi + 1#32 + (len >>> 29)) ∧
    (¬ carries → (c.advance len.toNat).bitsHi = c.bitsHi + (len >>> 29)) ∧
    (carries ↔ (c.advance len.toNat).bitsLo < c.bitsLo) ∧
    (c.advance len.toNat).h = c.h ∧ (c.advance len.toNat).buf = c.buf

/-- 42_stream.md R143, R156: ADVANCE is addition of `8 len` modulo `2^64`. -/
def Obligations.AdvanceIsAdditionModulo64Bits : Prop :=
  ∀ (c : Context) (len : Nat), (c.advance len).bits = (c.bits + 8 * len) % 2 ^ 64

/-! ### INIT, UPDATE, FINAL, WIPE -/

/-- 42_stream.md R141: INIT completes from every state, with the four constants and a zero counter; `in` is not written. -/
def Obligations.InitCompletes : Prop :=
  ∀ s : State, exec .init s = .next
    { s with
      ctx := { h := ⟨0x67452301#32, 0xefcdab89#32, 0x98badcfe#32, 0x10325476#32⟩, bitsLo := 0, bitsHi := 0, buf := s.ctx.buf }
      phase := .empty
      err := .ok }

/-- 42_stream.md R144: UPDATE completes where its checks pass. `H` folds the complete blocks of the waiting bytes followed by
the new ones, each as little-endian words for both values of BE; the rest waits in the buffer; the counter advances by
8 times the length. -/
def Obligations.UpdateFoldsBlocks : Prop :=
  ∀ s : State, s.UpdateReady → ∃ c : Context,
    exec .update s = .next { s with ctx := c, phase := .accumulating, err := .ok } ∧
    c.h = foldBlocks ((s.ctx.pending + s.srcLen.toNat) / 64) s.ctx.h (s.ctx.pendingBytes ++ s.message) ∧
    c.pending = (s.ctx.pending + s.srcLen.toNat) % 64 ∧
    c.pendingBytes =
      (s.ctx.pendingBytes ++ s.message).drop (64 * ((s.ctx.pending + s.srcLen.toNat) / 64)) ∧
    c.bits = (s.ctx.bits + 8 * s.srcLen.toNat) % 2 ^ 64

/-- 42_stream.md R145: the short fill: the new bytes are appended at `in[n]`, nothing else happens to `in` or `H`, and the
counter has been advanced. -/
def Obligations.UpdateShortFill : Prop :=
  ∀ s : State, s.UpdateReady → s.ctx.pending ≠ 0 → s.srcLen.toNat < 64 - s.ctx.pending → ∃ c : Context,
    exec .update s = .next { s with ctx := c, phase := .accumulating, err := .ok } ∧
    c.h = s.ctx.h ∧
    c.buf.bytes = s.ctx.buf.bytes.take s.ctx.pending ++ s.message ++ s.ctx.buf.bytes.drop (s.ctx.pending + s.srcLen.toNat) ∧
    c.bits = (s.ctx.bits + 8 * s.srcLen.toNat) % 2 ^ 64 ∧ c.pending = s.ctx.pending + s.srcLen.toNat

/-- 42_stream.md R146: an UPDATE of length 0 with a live context completes for every SRC_ADDR, and its only effects are PHASE
2 and ERR 0. -/
def Obligations.UpdateOfLengthZero : Prop :=
  ∀ s : State, s.phase ≠ .finalized → s.srcLen = 0 →
    exec .update s = .next { s with phase := .accumulating, err := .ok }

/-- 42_stream.md R155: UPDATE keeps the relation between the context and the message passed to it since INIT. -/
def Obligations.UpdateExtendsTheMessage : Prop :=
  ∀ (s : State) (m : List Byte), s.UpdateReady → s.ctx.Holds m → ∃ c : Context,
    exec .update s = .next { s with ctx := c, phase := .accumulating, err := .ok } ∧ c.Holds (m ++ s.message)

/-- 42_stream.md R141, R155: INIT starts the relation with the empty message. -/
def Obligations.InitHoldsTheEmptyMessage : Prop :=
  ∀ s t : State, exec .init s = .next t → t.ctx.Holds []

/-- 42_stream.md R147 to R151: FINAL completes where its checks pass, from every context: one or two compressions of the
padded block, the digest bytes little-endian for both values of BE, then the wipe. -/
def Obligations.FinalPadsAndWipes : Prop :=
  ∀ s : State, s.FinalReady →
    exec .final s = .next
      { s with
        mem := s.mem.writeBytes s.dstAddr.toNat (stateBytes s.ctx.finalState)
        ctx := Context.zero
        phase := .finalized
        err := .ok }

/-- 42_stream.md R153: FINAL writes the MD4 of the message, whatever `BE`. -/
def Obligations.FinalWritesTheMessageDigest : Prop :=
  ∀ (s : State) (m : List Byte), s.FinalReady → s.ctx.Holds m →
    exec .final s = .next
      { s with
        mem := s.mem.writeBytes s.dstAddr.toNat (md4 m)
        ctx := Context.zero
        phase := .finalized
        err := .ok }

/-- 42_stream.md R153, R154: INIT, then UPDATE for each chunk of any split, then FINAL, from every state, writes the MD4 of
the concatenation, whatever `BE` and whatever the split. -/
def Obligations.DigestIsIndependentOfTheSplit : Prop :=
  ∀ (s : State) (chunks : List (Word × Word)) (dst : Word), (∀ p ∈ chunks, s.chunkOk p) →
    dst.toNat + 16 ≤ 2 ^ 32 → (∀ i, i < 16 → memValid s.cfg (dst.toNat + i) .write = true) →
    ∃ t, digestSequence chunks dst s = .next t ∧
      t.mem = s.mem.writeBytes dst.toNat (md4 (s.chunkBytes chunks)) ∧
      t.ctx = Context.zero ∧ t.phase = .finalized ∧ t.err = .ok ∧ t.sticky = s.sticky

/-- 42_stream.md R151, R152: WIPE with a live context clears all of it and nothing else; in phase 0 it is refused. -/
def Obligations.WipeClearsTheContext : Prop :=
  ∀ s : State,
    (s.phase ≠ .finalized → exec .wipe s = .next
      { s with
        ctx := { h := ⟨0, 0, 0, 0⟩, bitsLo := 0, bitsHi := 0, buf := ⟨List.replicate 64 0, List.length_replicate⟩ }
        phase := .finalized
        err := .ok }) ∧
    (s.phase = .finalized → exec .wipe s = .next { s with err := .badPhase, sticky := true })

/-! ### KEYCRUNCH and REHASH -/

/-- 43_otp.md R171: FOLD byte by byte, for both values of BE. -/
def Obligations.FoldByteByByte : Prop :=
  ∀ (be : Bool) (d : List Byte), d.length = 16 → fold be d = List.zipWith (· ^^^ ·) (d.take 8) (d.drop 8)

/-- 43_otp.md R172, R173: LOWER and MASK7 keep the length and change each byte on its own, as numbers. -/
def Obligations.LowerAndMaskByteByByte : Prop :=
  ∀ bs : List Byte, (lower bs).length = bs.length ∧ (mask7 bs).length = bs.length ∧
    ∀ i, i < bs.length →
      ((lower bs).getD i 0).toNat =
        (if 0x41 ≤ (bs.getD i 0).toNat ∧ (bs.getD i 0).toNat ≤ 0x5A then (bs.getD i 0).toNat + 0x20
          else (bs.getD i 0).toNat) ∧
      ((mask7 bs).getD i 0).toNat = (bs.getD i 0).toNat % 128

/-- 43_otp.md R174, R177: KEYCRUNCH completes in every phase where its checks pass, and writes the folded MD4 of the masked
concatenation; K is zero after. -/
def Obligations.KeycrunchWritesTheKey : Prop :=
  ∀ s : State, s.CrunchReady →
    exec .keycrunch s = .next
      { s with
        mem := s.mem.writeBytes s.dstAddr.toNat (foldBytes (md4 (mask7 (lower s.seed ++ s.passphrase))))
        kd := Context.zero
        err := .ok }

/-- 43_otp.md R176, R177: REHASH completes in every phase where its checks pass, and replaces the key by the folded MD4 of
it; K is zero after. -/
def Obligations.RehashReplacesTheKey : Prop :=
  ∀ s : State, s.RehashReady →
    exec .rehash s = .next
      { s with
        mem := s.mem.writeBytes s.dstAddr.toNat (foldBytes (md4 s.key))
        kd := Context.zero
        err := .ok }

/-- 43_otp.md R176: the MD4 of an 8-byte key is one COMPRESS of the block that the rule writes out. -/
def Obligations.RehashCompressesOneBlock : Prop :=
  ∀ b0 b1 b2 b3 b4 b5 b6 b7 : Byte,
    md4 [b0, b1, b2, b3, b4, b5, b6, b7] =
      stateBytes (compress initialState
        ([le32 b0 b1 b2 b3, le32 b4 b5 b6 b7, 0x00000080#32] ++ List.replicate 11 0#32 ++ [0x00000040#32, 0#32]))

/-- 43_otp.md R178 (a), (b): the key is a function of the seed up to letter case and of the passphrase, and of nothing else
of the machine (not of PHASE, the host context, BE, the addresses or earlier commands). -/
def Obligations.KeyDependsOnSeedAndPassphraseOnly : Prop :=
  ∀ s s' : State, s.CrunchReady → s'.CrunchReady → lower s.seed = lower s'.seed → s.passphrase = s'.passphrase →
    ∃ (key : List Byte) (t t' : State), key.length = 8 ∧ exec .keycrunch s = .next t ∧ exec .keycrunch s' = .next t' ∧
      t.mem = s.mem.writeBytes s.dstAddr.toNat key ∧ t'.mem = s'.mem.writeBytes s'.dstAddr.toNat key

/-- 43_otp.md R178 (c): two REHASH commands on one address leave `FOLD(MD4(FOLD(MD4(key))))`. -/
def Obligations.RehashChains : Prop :=
  ∀ s : State, s.mem.wf = true → s.RehashReady → ∃ t u, exec .rehash s = .next t ∧ exec .rehash t = .next u ∧
    u.key = foldBytes (md4 (foldBytes (md4 s.key)))

/-! ### What the host cannot see, and reset in the middle of a command -/

/-- 42_stream.md R153, 20_memory.md R54, 10_state.md R23: two machines that differ at most in BE, in stale bytes of the
buffer and in K take the same steps, with the same MEM, STATUS and replies; only a read of CFG returns something
different. -/
def Obligations.ByteOrderAndStaleBytesAreInvisible : Prop :=
  ∀ s s' : State, s.SameButOrder s' →
    (∀ f, step s = .fault f → step s' = .fault f) ∧
    ∀ t, step s = .next t → ∃ t', step s' = .next t' ∧ t.SameButOrder t' ∧
      (s.reply = s'.reply → (∀ rest, s.host ≠ .regRead 7 32 :: rest) → t.reply = t'.reply)

/-- 10_state.md R37: the host context is exposed by nothing but FINAL: any other step gives the same machine, up to the context,
whatever the context holds. -/
def Obligations.ContextIsExposedOnlyByFinal : Prop :=
  ∀ (s t : State) (c : Context), ¬ s.nextIsCommand 0x00000003#32 → step s = .next t →
    ∃ c' : Context, step { s with ctx := c } = .next { t with ctx := c' }

/-- 70_reset_and_hazards.md R220: a command cut short by reset leaves the engine reset, and every byte of MEM old, or, inside
the destination of a command that would have completed, the byte it would have written. -/
def Obligations.ResetInsideACommand : Prop :=
  ∀ (s : State) (w : Word) (rest : List HostAccess), s.mem.wf = true → s.host = .cutCommand w :: rest →
    ∃ t, step s = .next t ∧
      t = { State.resetWith s.cfg with mem := t.mem, host := rest, freeCount := s.freeCount + 1 } ∧
      ∀ a, t.mem.read a = s.mem.read a ∨
        ∃ (i : Instr) (u : State), decode w = .ok i ∧ exec i { s with host := rest, reply := none } = .next u ∧
          u.err = .ok ∧ s.dstAddr.toNat ≤ a ∧ a < s.dstAddr.toNat + destBytes i ∧ t.mem.read a = u.mem.read a
end

