-- ==== Sys2Proof/Laws/ByteOrder.lean ====
section
/-! SUPPORT. What the byte and word conversions, the slice assignment and the normalizer's swap do. -/

namespace Sys2Proof.Machine

open Sys2Proof

/-! ### Words and their bytes (00_scope.md R9) -/

/-- `LE32` as a number. -/
theorem le32_toNat (b0 b1 b2 b3 : Byte) :
    (le32 b0 b1 b2 b3).toNat = b0.toNat + 2 ^ 8 * b1.toNat + 2 ^ 16 * b2.toNat + 2 ^ 24 * b3.toNat := by
  have h0 := b0.isLt
  have h1 := b1.isLt
  have h2 := b2.isLt
  have h3 := b3.isLt
  simp only [le32, BitVec.toNat_append]
  rw [← Nat.shiftLeft_add_eq_or_of_lt h0, ← Nat.shiftLeft_add_eq_or_of_lt h1, ← Nat.shiftLeft_add_eq_or_of_lt h2]
  simp only [Nat.shiftLeft_eq]
  omega

/-- `LE32(le_bytes32(v)) = v`. -/
theorem le32_of_bytes (v : Word) :
    le32 (v.extractLsb' 0 8) (v.extractLsb' 8 8) (v.extractLsb' 16 8) (v.extractLsb' 24 8) = v := by
  apply BitVec.eq_of_toNat_eq
  rw [le32_toNat]
  simp only [BitVec.extractLsb'_toNat, Nat.shiftRight_eq_div_pow]
  have h := v.isLt
  omega

/-- `le_bytes32(LE32(b0, b1, b2, b3))` is the four bytes. -/
theorem leBytes32_le32 (b0 b1 b2 b3 : Byte) : leBytes32 (le32 b0 b1 b2 b3) = [b0, b1, b2, b3] := by
  have h0 := b0.isLt
  have h1 := b1.isLt
  have h2 := b2.isLt
  have h3 := b3.isLt
  simp only [leBytes32, List.cons.injEq, and_true]
  refine ⟨?_, ?_, ?_, ?_⟩ <;> apply BitVec.eq_of_toNat_eq <;>
    rw [BitVec.extractLsb'_toNat, le32_toNat, Nat.shiftRight_eq_div_pow] <;> omega

theorem beBytes32_eq_reverse (v : Word) : beBytes32 v = (leBytes32 v).reverse := rfl

theorem be32_eq_le32 (b0 b1 b2 b3 : Byte) : be32 b0 b1 b2 b3 = le32 b3 b2 b1 b0 := rfl

@[simp] theorem leBytes32_length (v : Word) : (leBytes32 v).length = 4 := rfl

@[simp] theorem nativeBytes32_length (be : Bool) (v : Word) : (nativeBytes32 be v).length = 4 := by cases be <;> rfl

/-! ### The slice assignment -/

/-- Inside the buffer the slice assignment replaces the bytes of its range. -/
theorem overwrite_eq (off : Nat) (data buf : List Byte) (h : off + data.length ≤ buf.length) :
    overwrite off data buf = buf.take off ++ data ++ buf.drop (off + data.length) := by
  unfold overwrite
  rw [List.take_of_length_le (by omega : data.length ≤ buf.length - off)]

theorem getD_overwrite_below (off : Nat) (data buf : List Byte) (x : Nat) (hx : x < off) (ho : off ≤ buf.length) :
    (overwrite off data buf).getD x 0 = buf.getD x 0 := by
  unfold overwrite
  simp only [List.append_assoc]
  rw [List.getD_append _ _ _ _ (by simp; omega)]
  simp [hx]

theorem getD_overwrite_inside (off : Nat) (data buf : List Byte) (x : Nat) (hx : x < data.length)
    (ho : off + data.length ≤ buf.length) : (overwrite off data buf).getD (off + x) 0 = data.getD x 0 := by
  rw [overwrite_eq _ _ _ ho, List.append_assoc, List.getD_append_right _ _ _ _ (by simp)]
  have : (buf.take off).length = off := by simp; omega
  rw [this, Nat.add_sub_cancel_left, List.getD_append _ _ _ _ hx]

/-- A native load returns the word that the native store put there. -/
theorem nativeLoad32_store_same (be : Bool) (off : Nat) (v : Word) (buf : List Byte) (h : off + 4 ≤ buf.length) :
    nativeLoad32 be (nativeStore32 be off v buf) off = v := by
  have hl := nativeBytes32_length be v
  have g := fun x hx => getD_overwrite_inside off (nativeBytes32 be v) buf x hx (by omega)
  have g0 := g 0 (by omega)
  have g1 := g 1 (by omega)
  have g2 := g 2 (by omega)
  have g3 := g 3 (by omega)
  unfold nativeLoad32 nativeStore32
  rw [Nat.add_zero] at g0
  rw [g0, g1, g2, g3]
  cases be
  · exact le32_of_bytes v
  · exact le32_of_bytes v

/-- A native load below the stored word is not changed by the store. -/
theorem nativeLoad32_store_below (be : Bool) (off : Nat) (v : Word) (buf : List Byte) (x : Nat) (hx : x + 4 ≤ off)
    (h : off ≤ buf.length) : nativeLoad32 be (nativeStore32 be off v buf) x = nativeLoad32 be buf x := by
  have g := fun y hy => getD_overwrite_below off (nativeBytes32 be v) buf y hy h
  unfold nativeLoad32 nativeStore32
  rw [g x (by omega), g (x + 1) (by omega), g (x + 2) (by omega), g (x + 3) (by omega)]

/-! ### The swap (40_byte_order.md R102) -/

/-- Byte `j` of word `i` comes from byte `3 - j` of the same word. -/
theorem swapWords_getD (n : Nat) : ∀ (buf : List Byte) (i j : Nat), 4 * n ≤ buf.length → i < n → j < 4 →
    (swapWords n buf).getD (4 * i + j) 0 = buf.getD (4 * i + (3 - j)) 0 := by
  induction n with
  | zero => intros; omega
  | succ n ih =>
    intro buf i j hl hi hj
    match buf, hl with
    | b0 :: b1 :: b2 :: b3 :: rest, hl =>
      simp only [swapWords]
      cases i with
      | zero =>
        obtain rfl | rfl | rfl | rfl : j = 0 ∨ j = 1 ∨ j = 2 ∨ j = 3 := by omega
        all_goals simp
      | succ i =>
        have e1 : 4 * (i + 1) + j = (4 * i + j) + 4 := by omega
        have e2 : 4 * (i + 1) + (3 - j) = (4 * i + (3 - j)) + 4 := by omega
        rw [e1, e2]
        simp only [List.getD_cons_succ]
        exact ih rest i j (by simp at hl; omega) (by omega) hj
    | [], hl => simp at hl
    | [_], hl => simp at hl; omega
    | [_, _], hl => simp at hl; omega
    | [_, _, _], hl => simp at hl; omega

/-- One word of a normalized block, loaded natively, is its little-endian reading. -/
theorem nativeLoad32_normalize (be : Bool) (n : Nat) (b : Buffer) (i : Nat) (hn : n ≤ 16) (hi : i < n) :
    nativeLoad32 be (b.normalize be n).bytes (4 * i) =
      le32 (b.bytes.getD (4 * i) 0) (b.bytes.getD (4 * i + 1) 0) (b.bytes.getD (4 * i + 2) 0)
        (b.bytes.getD (4 * i + 3) 0) := by
  cases be
  · simp [nativeLoad32, normalizeWords, Buffer.normalize]
  · have h := fun j hj => swapWords_getD n b.bytes i j (by rw [b.size]; omega) hi hj
    have h0 := h 0 (by omega)
    have h1 := h 1 (by omega)
    have h2 := h 2 (by omega)
    have h3 := h 3 (by omega)
    simp only [Nat.add_zero, Nat.sub_zero, Nat.reduceSub] at h0 h1 h2 h3
    simp only [nativeLoad32, normalizeWords, Buffer.normalize, if_true, h0, h1, h2, h3]
    rfl

/-- The sixteen native words of a normalized block are its little-endian words (40_byte_order.md R105). -/
theorem nativeWords_normalize (be : Bool) (b : Buffer) : nativeWords be (b.normalize be 16).bytes = leWords b.bytes := by
  unfold nativeWords leWords
  apply List.map_congr_left
  intro i hi
  exact nativeLoad32_normalize be 16 b i (Nat.le_refl _) (by simpa using hi)

end Sys2Proof.Machine
end

