-- ==== Sys2Proof/Laws/Digest.lean ====
section
/-! SUPPORT. What the digest operations do to the parts of a context, free of `BE`. -/

namespace Sys2Proof.Machine

open Sys2Proof

/-! ### The pending count (10_state.md R24) -/

theorem pending_eq (c : Context) : c.pending = c.bitsLo.toNat / 8 % 64 := by
  simp only [Context.pending, BitVec.toNat_and, BitVec.toNat_ushiftRight, Nat.shiftRight_eq_div_pow]
  have : (0x3F#32).toNat = 2 ^ 6 - 1 := rfl
  rw [this, Nat.and_two_pow_sub_one_eq_mod]

theorem pending_lt (c : Context) : c.pending < 64 := by rw [pending_eq]; omega

theorem pendingBytes_length (c : Context) : c.pendingBytes.length = c.pending := by
  have := pending_lt c
  simp [Context.pendingBytes, c.buf.size]; omega

/-- The two halves are determined by the counter's number. -/
theorem halves_of_bits {c c' : Context} (h : c.bits = c'.bits) : c.bitsLo = c'.bitsLo ∧ c.bitsHi = c'.bitsHi := by
  unfold Context.bits at h
  have := c.bitsLo.isLt
  have := c'.bitsLo.isLt
  have := c.bitsHi.isLt
  have := c'.bitsHi.isLt
  constructor <;> apply BitVec.eq_of_toNat_eq <;> omega

/-- ADVANCE on the pending count. -/
theorem pending_advance (c : Context) (len : Nat) : (c.advance len).pending = (c.pending + len) % 64 := by
  simp only [pending_eq, Context.advance, BitVec.toNat_add, BitVec.toNat_ofNat]
  have h1 := c.bitsLo.isLt
  omega

@[simp] theorem advance_h (c : Context) (n : Nat) : (c.advance n).h = c.h := rfl
@[simp] theorem advance_buf (c : Context) (n : Nat) : (c.advance n).buf = c.buf := rfl

/-! ### Bytes into the buffer -/

theorem put_bytes (c : Context) (off : Nat) (data : List Byte) (h : off + data.length ≤ 64) :
    (c.put off data).buf.bytes = c.buf.bytes.take off ++ data ++ c.buf.bytes.drop (off + data.length) :=
  overwrite_eq _ _ _ (by rw [c.buf.size]; exact h)

theorem put_full (c : Context) (data : List Byte) (h : data.length = 64) : (c.put 0 data).buf.bytes = data := by
  rw [put_bytes _ _ _ (by omega)]
  simp [h, c.buf.size]

@[simp] theorem put_h (c : Context) (off : Nat) (data : List Byte) : (c.put off data).h = c.h := rfl
@[simp] theorem put_bitsLo (c : Context) (off : Nat) (data : List Byte) : (c.put off data).bitsLo = c.bitsLo := rfl
@[simp] theorem put_bitsHi (c : Context) (off : Nat) (data : List Byte) : (c.put off data).bitsHi = c.bitsHi := rfl

/-! ### One block -/

theorem absorb_eq (be : Bool) (c : Context) : c.absorb be =
    { c with h := compress c.h (leWords c.buf.bytes), buf := c.buf.normalize be 16 } := by
  simp [Context.absorb, Context.compressBuf, nativeWords_normalize]

@[simp] theorem absorb_h (be : Bool) (c : Context) : (c.absorb be).h = compress c.h (leWords c.buf.bytes) := by
  rw [absorb_eq]
@[simp] theorem absorb_bitsLo (be : Bool) (c : Context) : (c.absorb be).bitsLo = c.bitsLo := by rw [absorb_eq]
@[simp] theorem absorb_bitsHi (be : Bool) (c : Context) : (c.absorb be).bitsHi = c.bitsHi := by rw [absorb_eq]

/-! ### Many blocks (42_stream.md R153) -/

theorem foldBlocks_one (S : Lanes) (b : List Byte) (h : b.length = 64) : foldBlocks 1 S b = compress S (leWords b) := by
  simp [foldBlocks, List.take_of_length_le (Nat.le_of_eq h)]

/-- Bytes behind the blocks do not matter. -/
theorem foldBlocks_append (k : Nat) : ∀ (S : Lanes) (bs x : List Byte), 64 * k ≤ bs.length →
    foldBlocks k S (bs ++ x) = foldBlocks k S bs := by
  induction k with
  | zero => intros; rfl
  | succ k ih =>
    intro S bs x h
    simp only [foldBlocks]
    rw [List.take_append_of_le_length (by omega), List.drop_append_of_le_length (by omega), ih _ _ _ (by simp; omega)]

theorem foldBlocks_add (j k : Nat) : ∀ (S : Lanes) (bs : List Byte),
    foldBlocks (j + k) S bs = foldBlocks k (foldBlocks j S bs) (bs.drop (64 * j)) := by
  induction j with
  | zero => intros; simp [foldBlocks]
  | succ j ih =>
    intro S bs
    rw [show j + 1 + k = (j + k) + 1 by omega]
    simp only [foldBlocks]
    rw [ih, List.drop_drop]; congr 2; omega

/-- What UPDATE's block loop and tail leave. -/
structure BlocksSpec (c r : Context) (data : List Byte) : Prop where
  h : r.h = foldBlocks (data.length / 64) c.h data
  tail : r.buf.bytes.take (data.length % 64) = data.drop (64 * (data.length / 64))
  bitsLo : r.bitsLo = c.bitsLo
  bitsHi : r.bitsHi = c.bitsHi

theorem blocks_small (c : Context) (data : List Byte) (h : data.length < 64) : BlocksSpec c (c.put 0 data) data where
  h := by rw [Nat.div_eq_of_lt h]; rfl
  tail := by
    rw [put_bytes _ _ _ (by omega), Nat.mod_eq_of_lt h, Nat.div_eq_of_lt h]
    simp
  bitsLo := rfl
  bitsHi := rfl

theorem blocks_spec (be : Bool) (k : Nat) : ∀ (data : List Byte) (c : Context), data.length / 64 ≤ k →
    BlocksSpec c (Context.blocks be k data c) data := by
  induction k with
  | zero => intro data c h; exact blocks_small c data (by omega)
  | succ k ih =>
    intro data c h
    simp only [Context.blocks]
    split
    · rename_i hl
      have hb : (c.put 0 (data.take 64)).buf.bytes = data.take 64 := put_full _ _ (by simp [hl])
      have hd : data.length / 64 = (data.length - 64) / 64 + 1 := by omega
      obtain ⟨h1, h2, h3, h4⟩ := ih (data.drop 64) ((c.put 0 (data.take 64)).absorb be) (by simp; omega)
      simp only [absorb_h, hb, put_h, List.length_drop] at h1 h2
      constructor
      · rw [h1, hd]; rfl
      · rw [show data.length % 64 = (data.length - 64) % 64 by omega, h2, hd, List.drop_drop]
        congr 1; omega
      · rw [h3, absorb_bitsLo, put_bitsLo]
      · rw [h4, absorb_bitsHi, put_bitsHi]
    · exact blocks_small c data (by omega)

/-! ### The last block (42_stream.md R149, R150) -/

theorem leWords_take14 (x y : List Byte) (h : x.take 56 = y.take 56) : (leWords x).take 14 = (leWords y).take 14 := by
  have hr : List.range 16 = List.range 14 ++ [14, 15] := rfl
  unfold leWords
  rw [hr, List.map_append, List.map_append, List.take_left' (by simp), List.take_left' (by simp)]
  have g : ∀ k, k < 56 → x.getD k 0 = y.getD k 0 := by
    intro k hk
    have : (x.take 56).getD k 0 = (y.take 56).getD k 0 := by rw [h]
    simpa [List.getElem?_take, hk] using this
  apply List.map_congr_left
  intro i hi
  have : i < 14 := by simpa using hi
  rw [g _ (by omega), g _ (by omega), g _ (by omega), g _ (by omega)]

/-- The sixteen words of the trailer block: fourteen little-endian words, then the two numbers stored. -/
theorem trailer_words (be : Bool) (b : Buffer) (lo hi : Word) :
    nativeWords be (((b.normalize be 14).store32 be 56 lo).store32 be 60 hi).bytes =
      (leWords b.bytes).take 14 ++ [lo, hi] := by
  have s1 := (b.normalize be 14).size
  have s2 := ((b.normalize be 14).store32 be 56 lo).size
  have low : ∀ x, x + 4 ≤ 56 → nativeLoad32 be (((b.normalize be 14).store32 be 56 lo).store32 be 60 hi).bytes x =
      nativeLoad32 be (b.normalize be 14).bytes x := fun x hx =>
    (nativeLoad32_store_below be 60 hi _ x (by omega) (by omega)).trans
      (nativeLoad32_store_below be 56 lo _ x hx (by omega))
  have e56 : nativeLoad32 be (((b.normalize be 14).store32 be 56 lo).store32 be 60 hi).bytes 56 = lo :=
    (nativeLoad32_store_below be 60 hi _ 56 (by omega) (by omega)).trans
      (nativeLoad32_store_same be 56 lo _ (by omega))
  have e60 : nativeLoad32 be (((b.normalize be 14).store32 be 56 lo).store32 be 60 hi).bytes 60 = hi :=
    nativeLoad32_store_same be 60 hi _ (by omega)
  have hr : List.range 16 = List.range 14 ++ [14, 15] := rfl
  unfold nativeWords leWords
  rw [hr, List.map_append, List.map_append, List.take_left' (by simp)]
  congr 1
  · apply List.map_congr_left
    intro i hi'
    have : i < 14 := by simpa using hi'
    rw [low _ (by omega)]
    exact nativeLoad32_normalize be 14 b i (by omega) this
  · simp only [List.map_cons, List.map_nil, Nat.reduceMul, e56, e60]

theorem trailer_h (be : Bool) (c : Context) :
    (c.trailer be).h = compress c.h ((leWords c.buf.bytes).take 14 ++ [c.bitsLo, c.bitsHi]) := by
  rw [← trailer_words be]
  rfl

/-- OUTPUT writes the state words little-endian, whatever `BE`. -/
theorem output_eq (be : Bool) (c : Context) : c.output be = stateBytes c.h := by cases be <;> rfl

@[simp] theorem stateBytes_length (S : Lanes) : (stateBytes S).length = 16 := rfl

@[simp] theorem digest_length (be : Bool) (c : Context) : (c.digest be).length = 16 := by
  unfold Context.digest
  rw [output_eq, stateBytes_length]

@[simp] theorem md4_length (m : List Byte) : (md4 m).length = 16 := rfl

@[simp] theorem fold_length (be : Bool) (d : List Byte) : (fold be d).length = 8 := by simp [fold]

@[simp] theorem foldBytes_md4_length (m : List Byte) : (foldBytes (md4 m)).length = 8 := rfl

end Sys2Proof.Machine
end

