-- ==== Sys2Proof/Laws/Memory.lean ====
section
/-! SUPPORT. What the memory operations do: a read after a write, and the canonical form, which every one keeps. -/

namespace Sys2Proof.Machine

open Sys2Proof

/-- A write leaves every other address alone, in every memory. -/
theorem read_write_other (m : Memory) {a x : Nat} (b : Byte) (h : x ≠ a) : (m.write a b).read x = m.read x := by
  induction m with
  | nil => simp only [Memory.write]; split <;> simp [Memory.read, h.symm]
  | cons p m ih =>
    obtain ⟨k, v⟩ := p
    simp only [Memory.write]
    split
    · simp only [Memory.read]; split
      · rfl
      · exact ih
    · split
      · rename_i hk; subst hk
        split <;> simp [Memory.read, h.symm]
      · split <;> simp [Memory.read, h.symm]

/-- Below the lowest listed address a memory in canonical form reads as unlisted. -/
theorem read_of_wfFrom (m : Memory) : ∀ {low x : Nat}, Memory.wfFrom low m = true → x < low →
    m.read x = Memory.unlisted := by
  induction m with
  | nil => intros; rfl
  | cons p m ih =>
    obtain ⟨k, v⟩ := p
    intro low x hw hx
    simp only [Memory.wfFrom, Bool.and_eq_true, decide_eq_true_eq] at hw
    obtain ⟨⟨⟨h1, h2⟩, h3⟩, h4⟩ := hw
    simp only [Memory.read, show k ≠ x by omega, if_false]
    exact ih h4 (by omega)

theorem wfFrom_mono (m : Memory) {low low' : Nat} (hle : low' ≤ low) (h : Memory.wfFrom low m = true) :
    Memory.wfFrom low' m = true := by
  cases m with
  | nil => rfl
  | cons p m =>
    obtain ⟨k, v⟩ := p
    simp only [Memory.wfFrom, Bool.and_eq_true, decide_eq_true_eq] at h ⊢
    exact ⟨⟨⟨by omega, h.1.1.2⟩, h.1.2⟩, h.2⟩

/-- In canonical form a read returns the byte that was written. -/
theorem read_write_same_from (m : Memory) (a : Nat) (b : Byte) : ∀ {low : Nat}, Memory.wfFrom low m = true →
    (m.write a b).read a = b := by
  induction m with
  | nil =>
    intro low _
    simp only [Memory.write]; split
    · rename_i hb; simp [Memory.read, hb]
    · simp [Memory.read]
  | cons p m ih =>
    obtain ⟨k, v⟩ := p
    intro low hw
    have hw' := hw
    simp only [Memory.wfFrom, Bool.and_eq_true, decide_eq_true_eq] at hw
    simp only [Memory.write]
    split
    · rename_i hk
      simp only [Memory.read, show k ≠ a by omega, if_false]
      exact ih hw.2
    · split
      · rename_i hk; subst hk
        split
        · rename_i hb; rw [hb]; exact read_of_wfFrom m hw.2 (by omega)
        · simp [Memory.read]
      · split
        · rename_i hb; rw [hb]
          exact read_of_wfFrom ((k, v) :: m) (low := k) (by
            simp only [Memory.wfFrom, Bool.and_eq_true, decide_eq_true_eq]
            exact ⟨⟨⟨Nat.le_refl _, hw.1.1.2⟩, hw.1.2⟩, hw.2⟩) (by omega)
        · simp [Memory.read]

theorem read_write_same (m : Memory) (a : Nat) (b : Byte) (hw : m.wf = true) : (m.write a b).read a = b :=
  read_write_same_from m a b hw

theorem write_wfFrom (m : Memory) (a : Nat) (b : Byte) (ha : a < Config.memBytes) : ∀ {low : Nat}, low ≤ a →
    Memory.wfFrom low m = true → Memory.wfFrom low (m.write a b) = true := by
  induction m with
  | nil =>
    intro low hl _
    simp only [Memory.write]; split
    · rfl
    · rename_i hb; simp [Memory.wfFrom, hl, ha, hb]
  | cons p m ih =>
    obtain ⟨k, v⟩ := p
    intro low hl hw
    have hw' := hw
    simp only [Memory.wfFrom, Bool.and_eq_true, decide_eq_true_eq] at hw
    simp only [Memory.write]
    split
    · simp only [Memory.wfFrom, Bool.and_eq_true, decide_eq_true_eq]
      exact ⟨hw.1, ih (by omega) hw.2⟩
    · split
      · rename_i hk; subst hk
        split
        · exact wfFrom_mono m (by omega) hw.2
        · rename_i hb
          simp only [Memory.wfFrom, Bool.and_eq_true, decide_eq_true_eq]
          exact ⟨⟨hw.1.1, hb⟩, hw.2⟩
      · split
        · exact hw'
        · rename_i hb
          simp only [Memory.wfFrom, Bool.and_eq_true, decide_eq_true_eq]
          exact ⟨⟨⟨hl, ha⟩, hb⟩, ⟨⟨⟨by omega, hw.1.1.2⟩, hw.1.2⟩, hw.2⟩⟩

/-- A write inside MEM keeps the canonical form. -/
theorem write_wf (m : Memory) (a : Nat) (b : Byte) (ha : a < Config.memBytes) (hw : m.wf = true) :
    (m.write a b).wf = true := write_wfFrom m a b ha (Nat.zero_le _) hw

/-- MemWrite inside MEM keeps the canonical form. -/
theorem writeBytes_wf (bs : List Byte) : ∀ (m : Memory) (a : Nat), a + bs.length ≤ Config.memBytes → m.wf = true →
    (m.writeBytes a bs).wf = true := by
  induction bs with
  | nil => intro m a _ hw; exact hw
  | cons b bs ih =>
    intro m a ha hw
    simp only [List.length_cons] at ha
    exact ih _ _ (by omega) (write_wf m a b (by omega) hw)

/-- MemWrite leaves every address outside its range alone. -/
theorem read_writeBytes_outside (bs : List Byte) : ∀ (m : Memory) (a : Nat) {x : Nat},
    x < a ∨ a + bs.length ≤ x → (m.writeBytes a bs).read x = m.read x := by
  induction bs with
  | nil => intros; rfl
  | cons b bs ih =>
    intro m a x hx
    simp only [List.length_cons] at hx
    simp only [Memory.writeBytes]
    rw [ih _ _ (by omega), read_write_other _ _ (by omega)]

@[simp] theorem readBytes_length (m : Memory) (a n : Nat) : (m.readBytes a n).length = n := by
  induction n generalizing a with
  | zero => rfl
  | succ n ih => simp [Memory.readBytes, ih]

/-- A mixture of old and new destination bytes inside MEM keeps the canonical form. -/
theorem mixBytes_wf (old new : Memory) (wrote : Nat → Bool) (a n : Nat) : ∀ i, a + i + n ≤ Config.memBytes →
    old.wf = true → (Memory.mixBytes old new wrote a i n).wf = true := by
  induction n with
  | zero => intro i _ hw; exact hw
  | succ n ih =>
    intro i hi hw
    exact write_wf _ _ _ (by omega) (ih (i + 1) (by omega) hw)

/-- A mixture reads as the old memory, or, inside its range, as the new one. -/
theorem read_mixBytes (old new : Memory) (wrote : Nat → Bool) (a n : Nat) (hw : old.wf = true) : ∀ i,
    a + i + n ≤ Config.memBytes → ∀ x,
      (old.mixBytes new wrote a i n).read x = old.read x ∨
        (a + i ≤ x ∧ x < a + i + n ∧ (old.mixBytes new wrote a i n).read x = new.read x) := by
  induction n with
  | zero => intro i _ x; exact .inl rfl
  | succ n ih =>
    intro i hi x
    have hwf := mixBytes_wf old new wrote a n (i + 1) (by omega) hw
    simp only [Memory.mixBytes]
    by_cases hx : x = a + i
    · subst hx
      rw [read_write_same _ _ _ hwf]
      split
      · exact .inr ⟨by omega, by omega, rfl⟩
      · exact .inl rfl
    · rw [read_write_other _ _ hx]
      rcases ih (i + 1) (by omega) x with h | ⟨h1, h2, h3⟩
      · exact .inl h
      · exact .inr ⟨by omega, by omega, h3⟩

/-- The memory of the reset state is in canonical form. -/
theorem reset_mem_wf (cfg : Config) : (State.resetWith cfg).mem.wf = true := rfl

end Sys2Proof.Machine
end

