-- ==== Sys2Proof/Laws/State.lean ====
section
/-! SUPPORT. One lemma per field for each named update of the state, so that no later proof unfolds a record update. -/

namespace Sys2Proof.Machine

open Sys2Proof

section Refuse
variable (s : State) (e : ErrCode)
@[simp] theorem refuse_cfg : (s.refuse e).cfg = s.cfg := rfl
@[simp] theorem refuse_ctx : (s.refuse e).ctx = s.ctx := rfl
@[simp] theorem refuse_phase : (s.refuse e).phase = s.phase := rfl
@[simp] theorem refuse_srcAddr : (s.refuse e).srcAddr = s.srcAddr := rfl
@[simp] theorem refuse_srcLen : (s.refuse e).srcLen = s.srcLen := rfl
@[simp] theorem refuse_auxAddr : (s.refuse e).auxAddr = s.auxAddr := rfl
@[simp] theorem refuse_auxLen : (s.refuse e).auxLen = s.auxLen := rfl
@[simp] theorem refuse_dstAddr : (s.refuse e).dstAddr = s.dstAddr := rfl
@[simp] theorem refuse_err : (s.refuse e).err = e := rfl
@[simp] theorem refuse_sticky : (s.refuse e).sticky = true := rfl
@[simp] theorem refuse_kd : (s.refuse e).kd = s.kd := rfl
@[simp] theorem refuse_mem : (s.refuse e).mem = s.mem := rfl
@[simp] theorem refuse_host : (s.refuse e).host = s.host := rfl
@[simp] theorem refuse_reply : (s.refuse e).reply = s.reply := rfl
@[simp] theorem refuse_freeCount : (s.refuse e).freeCount = s.freeCount := rfl
end Refuse

section Complete
variable (s : State)
@[simp] theorem complete_cfg : s.complete.cfg = s.cfg := rfl
@[simp] theorem complete_ctx : s.complete.ctx = s.ctx := rfl
@[simp] theorem complete_phase : s.complete.phase = s.phase := rfl
@[simp] theorem complete_srcAddr : s.complete.srcAddr = s.srcAddr := rfl
@[simp] theorem complete_srcLen : s.complete.srcLen = s.srcLen := rfl
@[simp] theorem complete_auxAddr : s.complete.auxAddr = s.auxAddr := rfl
@[simp] theorem complete_auxLen : s.complete.auxLen = s.auxLen := rfl
@[simp] theorem complete_dstAddr : s.complete.dstAddr = s.dstAddr := rfl
@[simp] theorem complete_err : s.complete.err = .ok := rfl
@[simp] theorem complete_sticky : s.complete.sticky = s.sticky := rfl
@[simp] theorem complete_kd : s.complete.kd = s.kd := rfl
@[simp] theorem complete_mem : s.complete.mem = s.mem := rfl
@[simp] theorem complete_host : s.complete.host = s.host := rfl
@[simp] theorem complete_reply : s.complete.reply = s.reply := rfl
@[simp] theorem complete_freeCount : s.complete.freeCount = s.freeCount := rfl
end Complete

section ResetEngine
variable (s : State)
@[simp] theorem resetEngine_cfg : s.resetEngine.cfg = s.cfg := rfl
@[simp] theorem resetEngine_ctx : s.resetEngine.ctx = Context.zero := rfl
@[simp] theorem resetEngine_phase : s.resetEngine.phase = .finalized := rfl
@[simp] theorem resetEngine_srcAddr : s.resetEngine.srcAddr = 0 := rfl
@[simp] theorem resetEngine_srcLen : s.resetEngine.srcLen = 0 := rfl
@[simp] theorem resetEngine_auxAddr : s.resetEngine.auxAddr = 0 := rfl
@[simp] theorem resetEngine_auxLen : s.resetEngine.auxLen = 0 := rfl
@[simp] theorem resetEngine_dstAddr : s.resetEngine.dstAddr = 0 := rfl
@[simp] theorem resetEngine_err : s.resetEngine.err = .ok := rfl
@[simp] theorem resetEngine_sticky : s.resetEngine.sticky = false := rfl
@[simp] theorem resetEngine_kd : s.resetEngine.kd = Context.zero := rfl
@[simp] theorem resetEngine_mem : s.resetEngine.mem = s.mem := rfl
@[simp] theorem resetEngine_host : s.resetEngine.host = s.host := rfl
@[simp] theorem resetEngine_reply : s.resetEngine.reply = none := rfl
@[simp] theorem resetEngine_freeCount : s.resetEngine.freeCount = s.freeCount := rfl
end ResetEngine

/-- A write of an operand register changes at most the operand registers. -/
theorem setOperand_frame (s : State) (n : Nat) (v : Word) :
    s.setOperand n v =
      { s with
        srcAddr := (s.setOperand n v).srcAddr
        srcLen := (s.setOperand n v).srcLen
        auxAddr := (s.setOperand n v).auxAddr
        auxLen := (s.setOperand n v).auxLen
        dstAddr := (s.setOperand n v).dstAddr } := by
  unfold State.setOperand; split <;> rfl

section SetOperand
variable (s : State) (n : Nat) (v : Word)
@[simp] theorem setOperand_cfg : (s.setOperand n v).cfg = s.cfg := by rw [setOperand_frame]
@[simp] theorem setOperand_ctx : (s.setOperand n v).ctx = s.ctx := by rw [setOperand_frame]
@[simp] theorem setOperand_phase : (s.setOperand n v).phase = s.phase := by rw [setOperand_frame]
@[simp] theorem setOperand_err : (s.setOperand n v).err = s.err := by rw [setOperand_frame]
@[simp] theorem setOperand_sticky : (s.setOperand n v).sticky = s.sticky := by rw [setOperand_frame]
@[simp] theorem setOperand_kd : (s.setOperand n v).kd = s.kd := by rw [setOperand_frame]
@[simp] theorem setOperand_mem : (s.setOperand n v).mem = s.mem := by rw [setOperand_frame]
@[simp] theorem setOperand_host : (s.setOperand n v).host = s.host := by rw [setOperand_frame]
@[simp] theorem setOperand_reply : (s.setOperand n v).reply = s.reply := by rw [setOperand_frame]
@[simp] theorem setOperand_freeCount : (s.setOperand n v).freeCount = s.freeCount := by rw [setOperand_frame]
end SetOperand

/-- The operand register that was written holds the value. -/
theorem operand_setOperand_same (s : State) (n : Nat) (v : Word) (h2 : 2 ≤ n) (h6 : n ≤ 6) :
    (s.setOperand n v).operand n = v := by
  obtain rfl | rfl | rfl | rfl | rfl : n = 2 ∨ n = 3 ∨ n = 4 ∨ n = 5 ∨ n = 6 := by omega
  all_goals rfl

/-- The other operand registers keep their values. -/
theorem operand_setOperand_other (s : State) (n k : Nat) (v : Word) (h : k ≠ n) :
    (s.setOperand n v).operand k = s.operand k := by
  unfold State.setOperand
  split <;> unfold State.operand <;> split <;> first | rfl | exact absurd rfl h

end Sys2Proof.Machine
end

