-- ==== Sys2Proof/Laws/Ops.lean ====
section
/-! SUPPORT. How a command ends: the checks, the attempt, the operand spans. -/

namespace Sys2Proof.Machine

open Sys2Proof

/-- Everything an attempt can do: it always answers a next state, either the completed effect or a refusal with the
first failing check's code. -/
theorem attempt_next {s t : State} {checks : List (Bool × ErrCode)} {effect : State → State}
    (h : s.attempt checks effect = .next t) :
    (firstError checks = none ∧ t = (effect s).complete) ∨
      ∃ code, firstError checks = some code ∧ t = s.refuse code := by
  unfold State.attempt at h
  split at h
  · rename_i hf; exact .inl ⟨hf, by injection h with h; exact h.symm⟩
  · rename_i code hf; exact .inr ⟨code, hf, by injection h with h; exact h.symm⟩

theorem attempt_of_pass {s : State} {checks : List (Bool × ErrCode)} {effect : State → State}
    (h : firstError checks = none) : s.attempt checks effect = .next (effect s).complete := by
  simp [State.attempt, h]

theorem attempt_of_fail {s : State} {checks : List (Bool × ErrCode)} {effect : State → State} {code : ErrCode}
    (h : firstError checks = some code) : s.attempt checks effect = .next (s.refuse code) := by
  simp [State.attempt, h]

/-- A check list reports only codes that stand in it. -/
theorem firstError_mem {checks : List (Bool × ErrCode)} {code : ErrCode} (h : firstError checks = some code) :
    ∃ p ∈ checks, p.2 = code := by
  induction checks with
  | nil => simp [firstError] at h
  | cons p checks ih =>
    obtain ⟨ok, e⟩ := p
    simp only [firstError] at h
    split at h
    · obtain ⟨q, hq, hc⟩ := ih h; exact ⟨q, List.mem_cons_of_mem _ hq, hc⟩
    · injection h with h; exact ⟨_, List.mem_cons_self, h⟩

/-- The range rule of 20_memory.md R58 in the naturals. -/
theorem inRange_iff (p : Span) : p.inRange = true ↔ p.len = 0 ∨ p.addr.toNat + p.len ≤ 2 ^ 32 := by
  simp [Span.inRange, Config.memBytes]

/-- The validity rule of 20_memory.md R59, byte by byte. -/
theorem valid_iff (p : Span) (cfg : Config) (kind : AccessKind) :
    p.valid cfg kind = true ↔ ∀ i, i < p.len → memValid cfg (p.addr.toNat + i) kind = true := by
  simp [Span.valid, List.all_eq_true]

theorem live_iff (s : State) : s.live = true ↔ s.phase ≠ .finalized := by simp [State.live]

theorem scratchFits_iff (s : State) :
    s.scratchFits = true ↔ ∀ n, s.cfg.scratchBytes = some n → s.srcLen.toNat + s.auxLen.toNat ≤ n := by
  unfold State.scratchFits
  split <;> simp_all

end Sys2Proof.Machine
end

