-- ==== Sys2Proof/Laws/Exec.lean ====
section
/-! SUPPORT. Everything a command can do, said once: its checks, its effect, and which of the two happens. -/

namespace Sys2Proof.Machine

open Sys2Proof

/-- The checks of each command, in the order of 60_exceptions.md R198. -/
def checksOf (i : Instr) (s : State) : List (Bool × ErrCode) :=
  match i with
  | .init => []
  | .update => [(s.live, .badPhase), (s.srcSpan.inRange, .addrRange), (s.srcSpan.valid s.cfg .read, .memFault)]
  | .final => [(s.live, .badPhase), (s.digestSpan.inRange, .addrRange), (s.digestSpan.valid s.cfg .write, .memFault)]
  | .wipe => [(s.live, .badPhase)]
  | .keycrunch =>
    [(s.srcSpan.inRange && s.auxSpan.inRange && s.keySpan.inRange, .addrRange),
     (s.srcSpan.valid s.cfg .read && s.auxSpan.valid s.cfg .read && s.keySpan.valid s.cfg .write, .memFault),
     (s.scratchFits, .allocFail)]
  | .rehash =>
    [(s.keySpan.inRange, .addrRange), (s.keySpan.valid s.cfg .read && s.keySpan.valid s.cfg .write, .memFault)]

/-- The state in which each command completes. -/
def completedBy (i : Instr) (s : State) : State :=
  match i with
  | .init => { s with ctx := s.ctx.start, phase := .empty, err := .ok }
  | .update => { s with ctx := s.ctx.update s.cfg.be s.message, phase := .accumulating, err := .ok }
  | .final =>
    { s with
      mem := s.mem.writeBytes s.dstAddr.toNat (s.ctx.digest s.cfg.be)
      ctx := Context.zero
      phase := .finalized
      err := .ok }
  | .wipe => { s with ctx := Context.zero, phase := .finalized, err := .ok }
  | .keycrunch =>
    { s with
      mem := s.mem.writeBytes s.dstAddr.toNat
        (fold s.cfg.be (digestOnK s.cfg.be (crunchInput s.seed s.passphrase) s.kd))
      kd := Context.zero
      err := .ok }
  | .rehash =>
    { s with
      mem := s.mem.writeBytes s.dstAddr.toNat (fold s.cfg.be (digestOnK s.cfg.be s.key s.kd))
      kd := Context.zero
      err := .ok }

/-- A command either completes or is refused with the first failing check's code (60_exceptions.md R190, R198). -/
theorem exec_eq (i : Instr) (s : State) : exec i s =
    match firstError (checksOf i s) with
    | none => .next (completedBy i s)
    | some code => .next (s.refuse code) := by
  have h : ∀ (checks : List (Bool × ErrCode)) (effect : State → State) (t : State), (effect s).complete = t →
      s.attempt checks effect =
        match firstError checks with
        | none => .next t
        | some code => .next (s.refuse code) := by
    rintro checks effect t rfl
    rfl
  cases i <;> simp only [exec, execInit, execUpdate, execFinal, execWipe, execKeycrunch, execRehash, checksOf] <;>
    exact (h _ _ _ rfl).trans rfl

/-- No check list holds the code 0. -/
theorem checksOf_code {i : Instr} {s : State} {code : ErrCode} (h : firstError (checksOf i s) = some code) :
    code ≠ .ok ∧ i ≠ .init := by
  obtain ⟨p, hp, hc⟩ := firstError_mem h
  subst hc
  cases i <;> simp only [checksOf, List.mem_cons, List.not_mem_nil, or_false] at hp
  case wipe => subst hp; simp
  case rehash => rcases hp with rfl | rfl <;> simp
  all_goals rcases hp with rfl | rfl | rfl <;> simp

/-- The inversion lemma of `exec`. -/
theorem exec_cases (i : Instr) {s t : State} (h : exec i s = .next t) :
    (firstError (checksOf i s) = none ∧ t = completedBy i s) ∨
      ∃ code, firstError (checksOf i s) = some code ∧ code ≠ .ok ∧ i ≠ .init ∧ t = s.refuse code := by
  rw [exec_eq] at h
  split at h <;> rename_i hf <;> injection h with h
  · exact .inl ⟨hf, h.symm⟩
  · obtain ⟨h1, h2⟩ := checksOf_code hf
    exact .inr ⟨_, hf, h1, h2, h.symm⟩

theorem completedBy_err (i : Instr) (s : State) : (completedBy i s).err = .ok := by cases i <;> rfl

theorem completedBy_sticky (i : Instr) (s : State) : (completedBy i s).sticky = s.sticky := by cases i <;> rfl

/-- Which of the two outcomes it was can be read from ERR. -/
theorem exec_completed {i : Instr} {s t : State} (h : exec i s = .next t) (he : t.err = .ok) :
    firstError (checksOf i s) = none ∧ t = completedBy i s := by
  rcases exec_cases i h with h1 | ⟨code, _, h2, _, rfl⟩
  · exact h1
  · exact absurd he h2

/-- Every command has a next state, in every state. -/
theorem exec_total (i : Instr) (s : State) : ∃ t, exec i s = .next t := by
  rw [exec_eq]; split <;> exact ⟨_, rfl⟩

/-- What no command changes. -/
theorem exec_frame (i : Instr) {s t : State} (h : exec i s = .next t) :
    t.srcAddr = s.srcAddr ∧ t.srcLen = s.srcLen ∧ t.auxAddr = s.auxAddr ∧ t.auxLen = s.auxLen ∧
      t.dstAddr = s.dstAddr ∧ t.cfg = s.cfg ∧ t.host = s.host ∧ t.reply = s.reply ∧ t.freeCount = s.freeCount := by
  rcases exec_cases i h with ⟨_, rfl⟩ | ⟨code, _, _, _, rfl⟩
  · cases i <;> exact ⟨rfl, rfl, rfl, rfl, rfl, rfl, rfl, rfl, rfl⟩
  · exact ⟨rfl, rfl, rfl, rfl, rfl, rfl, rfl, rfl, rfl⟩

/-- A completing command's destination lies inside MEM. -/
theorem exec_dst_inRange (i : Instr) {s t : State} (h : exec i s = .next t) (he : t.err = .ok) :
    destBytes i = 0 ∨ s.dstAddr.toNat + destBytes i ≤ 2 ^ 32 := by
  obtain ⟨hf, _⟩ := exec_completed h he
  clear h he
  cases i
  case init => exact .inl rfl
  case update => exact .inl rfl
  case wipe => exact .inl rfl
  case final =>
    have hr : s.digestSpan.inRange = true := by
      simp only [checksOf, firstError] at hf
      split at hf
      · split at hf
        · assumption
        · cases hf
      · cases hf
    exact .inr (by simpa [State.digestSpan, destBytes] using (inRange_iff _).1 hr)
  case keycrunch =>
    have hr : s.keySpan.inRange = true := by
      simp only [checksOf, firstError] at hf
      split at hf
      · rename_i hr; simp only [Bool.and_eq_true] at hr; exact hr.2
      · cases hf
    exact .inr (by simpa [State.keySpan, destBytes] using (inRange_iff _).1 hr)
  case rehash =>
    have hr : s.keySpan.inRange = true := by
      simp only [checksOf, firstError] at hf
      split at hf
      · assumption
      · cases hf
    exact .inr (by simpa [State.keySpan, destBytes] using (inRange_iff _).1 hr)

/-- The memory after a command: unchanged, or with its destination bytes written at `DST_ADDR`. -/
theorem exec_mem (i : Instr) {s t : State} (h : exec i s = .next t) :
    t.mem = s.mem ∨
      ∃ bs : List Byte, bs.length = destBytes i ∧ t.mem = s.mem.writeBytes s.dstAddr.toNat bs ∧ t.err = .ok := by
  rcases exec_cases i h with ⟨_, h3⟩ | ⟨code, _, _, _, rfl⟩
  · have he : t.err = .ok := by rw [h3]; exact completedBy_err i s
    cases i
    · left; rw [h3]; rfl
    · left; rw [h3]; rfl
    · right; exact ⟨_, digest_length _ _, by rw [h3]; rfl, he⟩
    · left; rw [h3]; rfl
    · right; exact ⟨_, fold_length _ _, by rw [h3]; rfl, he⟩
    · right; exact ⟨_, fold_length _ _, by rw [h3]; rfl, he⟩
  · exact .inl rfl

/-- A command leaves every byte outside its destination alone. -/
theorem exec_mem_outside (i : Instr) {s t : State} (h : exec i s = .next t) (a : Nat)
    (ha : a < s.dstAddr.toNat ∨ s.dstAddr.toNat + destBytes i ≤ a) : t.mem.read a = s.mem.read a := by
  rcases exec_mem i h with h1 | ⟨bs, h1, h2, _⟩
  · rw [h1]
  · rw [h2]; exact read_writeBytes_outside _ _ _ (by rw [h1]; exact ha)

/-- A command keeps the memory's canonical form. -/
theorem exec_mem_wf (i : Instr) {s t : State} (h : exec i s = .next t) (hw : s.mem.wf = true) : t.mem.wf = true := by
  rcases exec_mem i h with h1 | ⟨bs, h1, h2, h3⟩
  · rw [h1]; exact hw
  · rw [h2]
    rcases exec_dst_inRange i h h3 with h0 | hr
    · rw [h0] at h1
      rw [List.eq_nil_of_length_eq_zero h1]; exact hw
    · exact writeBytes_wf _ _ _ (by rw [h1]; exact hr) hw

end Sys2Proof.Machine
end

