-- ==== Sys2Proof/Laws/PerInstr.lean ====
section
/-! SUPPORT. The family of statements made once per command: its encoding. -/

open Sys2Proof

/-- A command is well-formed whatever it is, its word has the format `C` of 30_encoding.md R80 (bits 31:8 zero) and
an assigned opcode, and the word is one row of the opcode map of R81. -/
def Sys2Proof.Laws.Encoding.Statement (i : Instr) : Prop :=
  i.wellFormed = true ∧ zeroField (encode i) = 0 ∧ 0x01#8 ≤ opcodeField (encode i) ∧ opcodeField (encode i) ≤ 0x06#8 ∧
    (encode i, 0xFFFFFFFF#32, i) ∈ opcodeMap

theorem Sys2Proof.Laws.Encoding.init : Sys2Proof.Laws.Encoding.Statement .init := by
  unfold Sys2Proof.Laws.Encoding.Statement; decide

theorem Sys2Proof.Laws.Encoding.update : Sys2Proof.Laws.Encoding.Statement .update := by
  unfold Sys2Proof.Laws.Encoding.Statement; decide

theorem Sys2Proof.Laws.Encoding.final : Sys2Proof.Laws.Encoding.Statement .final := by
  unfold Sys2Proof.Laws.Encoding.Statement; decide

theorem Sys2Proof.Laws.Encoding.wipe : Sys2Proof.Laws.Encoding.Statement .wipe := by
  unfold Sys2Proof.Laws.Encoding.Statement; decide

theorem Sys2Proof.Laws.Encoding.keycrunch : Sys2Proof.Laws.Encoding.Statement .keycrunch := by
  unfold Sys2Proof.Laws.Encoding.Statement; decide

theorem Sys2Proof.Laws.Encoding.rehash : Sys2Proof.Laws.Encoding.Statement .rehash := by
  unfold Sys2Proof.Laws.Encoding.Statement; decide
end

