-- ==== Sys2Proof/Laws/Step.lean ====
section
/-! SUPPORT. Everything a step can do, said once: the host's access, and what it does. -/

namespace Sys2Proof.Machine

open Sys2Proof

section TakeAccess
variable (s : State) (rest : List HostAccess)
@[simp] theorem takeAccess_cfg : (s.takeAccess rest).cfg = s.cfg := rfl
@[simp] theorem takeAccess_ctx : (s.takeAccess rest).ctx = s.ctx := rfl
@[simp] theorem takeAccess_phase : (s.takeAccess rest).phase = s.phase := rfl
@[simp] theorem takeAccess_srcAddr : (s.takeAccess rest).srcAddr = s.srcAddr := rfl
@[simp] theorem takeAccess_srcLen : (s.takeAccess rest).srcLen = s.srcLen := rfl
@[simp] theorem takeAccess_auxAddr : (s.takeAccess rest).auxAddr = s.auxAddr := rfl
@[simp] theorem takeAccess_auxLen : (s.takeAccess rest).auxLen = s.auxLen := rfl
@[simp] theorem takeAccess_dstAddr : (s.takeAccess rest).dstAddr = s.dstAddr := rfl
@[simp] theorem takeAccess_err : (s.takeAccess rest).err = s.err := rfl
@[simp] theorem takeAccess_sticky : (s.takeAccess rest).sticky = s.sticky := rfl
@[simp] theorem takeAccess_kd : (s.takeAccess rest).kd = s.kd := rfl
@[simp] theorem takeAccess_mem : (s.takeAccess rest).mem = s.mem := rfl
@[simp] theorem takeAccess_host : (s.takeAccess rest).host = rest := rfl
@[simp] theorem takeAccess_reply : (s.takeAccess rest).reply = none := rfl
@[simp] theorem takeAccess_freeCount : (s.takeAccess rest).freeCount = s.freeCount := rfl
end TakeAccess

/-- A word that decodes is the word of its command. -/
theorem word_of_decode {w : Word} {i : Instr} (h : decode w = .ok i) : w = encode i := by
  unfold decode at h
  split at h
  · cases h
  · rename_i hz
    have hz : zeroField w = 0 := by simpa using hz
    have hz' := congrArg BitVec.toNat hz
    simp only [zeroField, BitVec.extractLsb'_toNat, Nat.shiftRight_eq_div_pow] at hz'
    have hw := w.isLt
    have ho : (opcodeField w).toNat = w.toNat := by
      simp only [opcodeField, BitVec.extractLsb'_toNat, Nat.shiftRight_eq_div_pow]
      have : (0 : BitVec 24).toNat = 0 := rfl
      omega
    apply BitVec.eq_of_toNat_eq
    rw [← ho]
    split at h <;> first | (cases h; simp_all [encode]) | cases h

/-- The inversion lemma of `step`. -/
theorem step_next {s t : State} (h : step s = .next t) :
    (s.host = [] ∧ t = s) ∨ ∃ a rest, s.host = a :: rest ∧ perform a (s.takeAccess rest) = .next t := by
  unfold step at h
  split at h
  · rename_i hh; injection h with h; exact .inl ⟨hh, h.symm⟩
  · rename_i a rest hh; exact .inr ⟨a, rest, hh, h⟩

/-- The inversion lemma of a host access. -/
theorem perform_next {a : HostAccess} {s t : State} (h : perform a s = .next t) :
    (∃ w, a = .regWrite 0 32 w ∧ launch w s = .next t) ∨
    (∃ n v, a = .regWrite n 32 v ∧ 0 < n ∧ n < 8 ∧ t = s.setOperand n v) ∨
    (∃ n, a = .regRead n 32 ∧ n < 8 ∧ t = { s with reply := some (.word (s.regRead n)) }) ∨
    (∃ x b, a = .memStore x b ∧ t = { s with mem := s.mem.write x.toNat b }) ∨
    (∃ x, a = .memLoad x ∧ t = { s with reply := some (.byte (s.mem.read x.toNat)) }) ∨
    (a = .reset ∧ t = s.resetEngine) ∨
    (∃ w, a = .cutCommand w ∧ t = { s.resetEngine with mem := s.cutMemory w, freeCount := s.freeCount + 1 }) := by
  cases a with
  | regWrite n width v =>
    simp only [perform, portCheck] at h
    by_cases h8 : n ≥ 8
    · simp [h8] at h
    by_cases hw : width = 32
    · subst hw
      simp only [h8, if_false, ne_eq, not_true, State.regWrite] at h
      by_cases h0 : n = 0
      · subst h0; simp only [if_true] at h; exact .inl ⟨v, rfl, h⟩
      · simp only [h0, if_false] at h; injection h with h
        exact .inr (.inl ⟨n, v, rfl, by omega, by omega, h.symm⟩)
    · simp [h8, hw] at h
  | regRead n width =>
    simp only [perform, portCheck] at h
    by_cases h8 : n ≥ 8
    · simp [h8] at h
    by_cases hw : width = 32
    · subst hw
      simp only [h8, if_false, ne_eq, not_true] at h
      injection h with h
      exact .inr (.inr (.inl ⟨n, rfl, by omega, h.symm⟩))
    · simp [h8, hw] at h
  | memStore x b => injection h with h; exact .inr (.inr (.inr (.inl ⟨x, b, rfl, h.symm⟩)))
  | memLoad x => injection h with h; exact .inr (.inr (.inr (.inr (.inl ⟨x, rfl, h.symm⟩))))
  | reset => injection h with h; exact .inr (.inr (.inr (.inr (.inr (.inl ⟨rfl, h.symm⟩)))))
  | cutCommand w => injection h with h; exact .inr (.inr (.inr (.inr (.inr (.inr ⟨w, rfl, h.symm⟩)))))

/-- The inversion lemma of a CMD write. -/
theorem launch_next {w : Word} {s t : State} (h : launch w s = .next t) :
    (∃ i, decode w = .ok i ∧ exec i s = .next t) ∨ ((∃ e, decode w = .error e) ∧ t = s.refuse .illegalCmd) := by
  unfold launch at h
  split at h
  · rename_i i hi; exact .inl ⟨i, hi, h⟩
  · rename_i e he; injection h with h; exact .inr ⟨⟨e, he⟩, h.symm⟩

theorem launch_total (w : Word) (s : State) : ∃ t, launch w s = .next t := by
  unfold launch
  split
  · exact exec_total _ _
  · exact ⟨_, rfl⟩

/-- MEM after a command cut short by reset: unchanged, or a mixture in the destination of a command that would have
completed. -/
theorem cutMemory_cases (s : State) (w : Word) :
    s.cutMemory w = s.mem ∨ ∃ i u, decode w = .ok i ∧ exec i s = .next u ∧ u.err = .ok ∧
      s.cutMemory w =
        Memory.mixBytes s.mem u.mem (Config.cutWrote s.freeCount) s.dstAddr.toNat 0 (destBytes i) := by
  unfold State.cutMemory
  split
  · exact .inl rfl
  · rename_i i hd
    obtain ⟨u, hu⟩ := exec_total i s
    rw [hu]
    simp only
    split
    · rename_i he; exact .inr ⟨i, u, hd, hu, he, rfl⟩
    · exact .inl rfl

theorem cutMemory_wf (s : State) (w : Word) (h : s.mem.wf = true) : (s.cutMemory w).wf = true := by
  rcases cutMemory_cases s w with h1 | ⟨i, u, _, hu, he, h1⟩
  · rw [h1]; exact h
  · rw [h1]
    rcases exec_dst_inRange i hu he with h0 | hr
    · rw [h0]; exact h
    · exact mixBytes_wf _ _ _ _ _ 0 (by simpa using hr) h

end Sys2Proof.Machine
end

