-- ==== Sys2Proof/Machine/Script.lean ====
section
/-! DEFINITION. The host script's lines and macros (30_encoding.md R88, R89): names for lists of accesses. -/

namespace Sys2Proof.Machine

open Sys2Proof

/-- `WR n, v`: one whole-word register write (R88). -/
def writeLine (n : Nat) (v : Word) : HostAccess := .regWrite n 32 v

/-- `RD n`: one whole-word register read (R88). -/
def readLine (n : Nat) : HostAccess := .regRead n 32

/-- `WR CMD, w` with the word of a command. -/
def commandLine (i : Instr) : HostAccess := writeLine 0 (encode i)

/-- Macro `INIT` (R89). -/
def macroInit : List HostAccess := [commandLine .init]

/-- Macro `UPDATE a, n` (R89). -/
def macroUpdate (a n : Word) : List HostAccess := [writeLine 2 a, writeLine 3 n, commandLine .update]

/-- Macro `FINAL d` (R89). -/
def macroFinal (d : Word) : List HostAccess := [writeLine 6 d, commandLine .final]

/-- Macro `WIPE` (R89). -/
def macroWipe : List HostAccess := [commandLine .wipe]

/-- Macro `KEYCRUNCH sa, sn, pa, pn, d` (R89). -/
def macroKeycrunch (sa sn pa pn d : Word) : List HostAccess :=
  [writeLine 2 sa, writeLine 3 sn, writeLine 4 pa, writeLine 5 pn, writeLine 6 d, commandLine .keycrunch]

/-- Macro `REHASH k` (R89). -/
def macroRehash (k : Word) : List HostAccess := [writeLine 6 k, commandLine .rehash]

/-- Macro `DIGEST a, n, d` (R89). -/
def macroDigest (a n d : Word) : List HostAccess := macroInit ++ macroUpdate a n ++ macroFinal d

end Sys2Proof.Machine
end

