-- ==== Sys2Proof/Tests/Slice0.lean ====
section
/-! SUPPORT. The model's own tests: expected values from the spec, and for every statement with hypotheses a
concrete state that meets them. -/

namespace Sys2Proof.Tests

open Sys2Proof Sys2Proof.Machine

/-- What `f` says of the next state. -/
def after {α : Type} (o : Host.Outcome State Fault Refusal) (f : State → α) : Option α :=
  match o with
  | .next s => some (f s)
  | .fault _ => none
  | .refused _ => none

/-- The four words of `Lanes` as a list. -/
def words (v : Lanes) : List Word := [v.a, v.b, v.c, v.d]

/-- The machine after reset with byte order `be`. -/
def fresh (be : Bool) : State := State.resetWith { be := be, scratchBytes := none, holes := [] }

/-- A machine with a scratch buffer of 16 bytes, where byte 0x5000 can be neither read nor written. -/
def guarded : State := State.resetWith { be := true, scratchBytes := some 16, holes := [⟨0x5000, 1, true, true⟩] }

/-- "abc" at 0x1000. -/
def abcMem : Memory := [(0x1000, 0x61), (0x1001, 0x62), (0x1002, 0x63)]

/-- The context after INIT, UPDATE "abc" (42_stream.md R144, example). -/
def abcCtx : Context :=
  { h := initialState, bitsLo := 0x18#32, bitsHi := 0, buf := Buffer.zero.put 0 [0x61, 0x62, 0x63] }

/-- The context after INIT from reset. -/
def ivCtx : Context := { h := initialState, bitsLo := 0, bitsHi := 0, buf := Buffer.zero }

/-! ### Ill-formed terms -/

theorem test_register_8_is_illformed : (HostAccess.regWrite 8 32 0).wellFormed = false := by decide
theorem test_read_of_register_8_is_illformed : (HostAccess.regRead 8 32).wellFormed = false := by decide
theorem test_narrow_write_is_illformed : (HostAccess.regWrite 2 16 0).wellFormed = false := by decide
theorem test_narrow_read_is_illformed : (HostAccess.regRead 1 8).wellFormed = false := by decide
theorem test_register_7_is_wellformed : (HostAccess.regWrite 7 32 0).wellFormed = true := by decide

/-! ### The command words of 30_encoding.md R80, R81, bit by bit -/

theorem test_decode_init : decode 0b00000000000000000000000000000001#32 = .ok .init := by decide
theorem test_decode_update : decode 0b00000000000000000000000000000010#32 = .ok .update := by decide
theorem test_decode_final : decode 0b00000000000000000000000000000011#32 = .ok .final := by decide
theorem test_decode_wipe : decode 0b00000000000000000000000000000100#32 = .ok .wipe := by decide
theorem test_decode_keycrunch : decode 0b00000000000000000000000000000101#32 = .ok .keycrunch := by decide
theorem test_decode_rehash : decode 0b00000000000000000000000000000110#32 = .ok .rehash := by decide
theorem test_decode_zero : decode 0b00000000000000000000000000000000#32 = .error .unassignedOpcode := by decide
theorem test_decode_seven : decode 0b00000000000000000000000000000111#32 = .error .unassignedOpcode := by decide
theorem test_decode_upper : decode 0b00000000000000000000000100000010#32 = .error .nonzeroUpper := by decide
theorem test_decode_bit31 : decode 0b10000000000000000000000000000001#32 = .error .nonzeroUpper := by decide
theorem test_table_word : decodeTableWord 32 5 = some .keycrunch := by decide
theorem test_table_word_short : decodeTableWord 8 6 = some .rehash := by decide

/-! ### The compression core (41_compress.md R119; 95_test_vectors.md 2.1, 2.2, 2.4) -/

/-- The rows of R119's table for one pass: mixing function, word order, rotations, constant; targets a, d, c, b. -/
def passRows (mix : Mix) (ks rots : List Nat) (k : Word) : List RoundRow :=
  (List.range 16).map fun i => ⟨mix, [Lane.a, .d, .c, .b].getD (i % 4) .a, ks.getD i 0, rots.getD (i % 4) 0, k⟩

theorem test_schedule_pass1 : schedule.take 16 =
    passRows .f [0, 1, 2, 3, 4, 5, 6, 7, 8, 9, 10, 11, 12, 13, 14, 15] [3, 7, 11, 19] 0 := by decide
theorem test_schedule_pass2 : (schedule.drop 16).take 16 =
    passRows .g [0, 4, 8, 12, 1, 5, 9, 13, 2, 6, 10, 14, 3, 7, 11, 15] [3, 5, 9, 13] 0x5a827999#32 := by decide
theorem test_schedule_pass3 : schedule.drop 32 =
    passRows .h [0, 8, 4, 12, 2, 10, 6, 14, 1, 9, 5, 13, 3, 11, 7, 15] [3, 9, 11, 15] 0x6ed9eba1#32 := by decide

theorem test_mixing : (mixF 0xf0f0f0f0#32 0xcccccccc#32 0xaaaaaaaa#32, mixG 0xf0f0f0f0#32 0xcccccccc#32 0xaaaaaaaa#32,
    mixH 0xf0f0f0f0#32 0xcccccccc#32 0xaaaaaaaa#32) = (0xcacacaca#32, 0xe8e8e8e8#32, 0x96969696#32) := by decide
theorem test_rotl : (rotl32 0x80000001#32 3, rotl32 0x80000001#32 19, rotl32 0xdeadbeef#32 5) =
    (0x0000000c#32, 0x000c0000#32, 0xd5b7ddfb#32) := by decide
theorem test_round0 : roundValue .f 0x67452301#32 0xefcdab89#32 0x98badcfe#32 0x10325476#32 0x80636261#32 0 3 =
    0x031b1304#32 := by decide
theorem test_compress_zero : words (compress ⟨0, 0, 0, 0⟩ (List.replicate 16 0)) =
    [0x33c84836#32, 0xc19152d1#32, 0xe762d9df#32, 0xa20027bd#32] := by decide +kernel
theorem test_compress_index : words (compress initialState ((List.range 16).map (BitVec.ofNat 32))) =
    [0xa3672376#32, 0x002d5048#32, 0x1a3d410b#32, 0x24658c77#32] := by decide +kernel

/-! ### Byte order, counter, folds (40_byte_order.md R100; 95_test_vectors.md 4.3, 6.3; 43_otp.md R171) -/

theorem test_normalize : normalizeWords true 1 [0x61, 0x62, 0x63, 0x80, 0x55] = [0x80, 0x63, 0x62, 0x61, 0x55] := by decide
theorem test_advance_carry_and_top_bits : ((Context.advance 0xffffffff { ivCtx with bitsLo := 8#32 }).bitsLo,
    (Context.advance 0xffffffff { ivCtx with bitsLo := 8#32 }).bitsHi) = (0#32, 8#32) := by decide
theorem test_advance_wraps :
    ((Context.advance 1 { ivCtx with bitsLo := 0xfffffff8#32, bitsHi := 0xffffffff#32 }).bitsLo,
      (Context.advance 1 { ivCtx with bitsLo := 0xfffffff8#32, bitsHi := 0xffffffff#32 }).bitsHi) = (0#32, 0#32) := by decide
theorem test_crunch_input : crunchInput [0x5a, 0x5b, 0x40, 0x60, 0x61, 0x7a, 0x7b] [0x5a, 0x5b, 0x40, 0x60] =
    [0x7a, 0x5b, 0x40, 0x60, 0x61, 0x7a, 0x7b, 0x5a, 0x5b, 0x40, 0x60] := by decide
theorem test_crunch_input_high_bits : crunchInput [0xc1, 0xe1, 0x41] [0x78, 0xf8] = [0x41, 0x61, 0x61, 0x78, 0x78] := by
  decide
theorem test_fold_big_endian : fold true [0xd3, 0x6d, 0x75, 0x87, 0xf2, 0xe1, 0xbe, 0x7c, 0x02, 0xe8, 0x37, 0x9f, 0x19,
    0x5a, 0xb5, 0x2d] = [0xd1, 0x85, 0x42, 0x18, 0xeb, 0xbb, 0x0b, 0x51] := by decide
theorem test_macro_digest : macroDigest 0x1000 3 0x2000 = [.regWrite 0 32 1, .regWrite 2 32 0x1000, .regWrite 3 32 3,
    .regWrite 0 32 2, .regWrite 6 32 0x2000, .regWrite 0 32 3] := by decide

/-! ### One step of each command (the examples of 42_stream.md, 43_otp.md; 95_test_vectors.md 4.4, 6, 7) -/

theorem test_init_status : after (exec .init (fresh false)) (fun t => (words t.ctx.h, t.statusWord)) =
    some ([0x67452301#32, 0xefcdab89#32, 0x98badcfe#32, 0x10325476#32], 0x00000001#32) := by decide

theorem test_update_abc :
    after (exec .update { fresh true with ctx := ivCtx, phase := .empty, srcAddr := 0x1000, srcLen := 3, mem := abcMem })
      (fun t => (t.ctx, t.statusWord)) = some (abcCtx, 0x00000002#32) := by decide +kernel
theorem test_update_past_the_top :
    after (exec .update { fresh false with ctx := ivCtx, phase := .empty, sticky := true, srcAddr := 0xfffffff0, srcLen := 0x20 })
      (fun t => (t.ctx, t.statusWord)) = some (ivCtx, 0x0000004d#32) := by decide +kernel

theorem test_final_abc (be : Bool) :
    after (exec .final { fresh be with ctx := abcCtx, phase := .accumulating, dstAddr := 0x2000 })
      (fun t => (t.mem.readBytes 0x2000 16, t.ctx, t.statusWord)) =
      some ([0xa4, 0x48, 0x01, 0x7a, 0xaf, 0x21, 0xd8, 0x52, 0x5f, 0xc1, 0x0a, 0xe8, 0x7a, 0xa6, 0x72, 0x9d],
        Context.zero, 0x00000000#32) := by
  cases be <;> decide +kernel
theorem test_final_high_half (be : Bool) :
    after (exec .final { fresh be with ctx := { ivCtx with bitsHi := 1 }, phase := .accumulating, dstAddr := 0xfffffff0 })
      (fun t => t.mem.readBytes 0xfffffff0 16) =
      some [0x87, 0x2c, 0x45, 0xf9, 0x5d, 0x82, 0x2c, 0xe8, 0x94, 0x51, 0x51, 0x7d, 0xbd, 0xfe, 0xc8, 0x47] := by
  cases be <;> decide +kernel

theorem test_wipe_abc : after (exec .wipe { fresh false with ctx := abcCtx, phase := .accumulating, mem := abcMem })
    (fun t => (t.ctx, t.mem, t.statusWord)) = some (Context.zero, abcMem, 0x00000000#32) := by decide
theorem test_wipe_without_context : after (exec .wipe (fresh false)) (fun t => t.statusWord) = some 0x00000048#32 := by decide

theorem test_keycrunch_test (be : Bool) :
    after (exec .keycrunch
      { fresh be with
        srcAddr := 0x1100, srcLen := 4, auxAddr := 0x1104, auxLen := 15, dstAddr := 0x1102
        mem := Memory.writeBytes [] 0x1100
          [0x54, 0x65, 0x53, 0x74, 0x54, 0x68, 0x69, 0x73, 0x20, 0x69, 0x73, 0x20, 0x61, 0x20, 0x74, 0x65, 0x73, 0x74, 0x2e] })
      (fun t => (t.mem.readBytes 0x1102 8, t.kd)) =
      some ([0xd1, 0x85, 0x42, 0x18, 0xeb, 0xbb, 0x0b, 0x51], Context.zero) := by
  cases be <;> decide +kernel
theorem test_keycrunch_scratch :
    after (exec .keycrunch { guarded with phase := .accumulating, sticky := true, srcLen := 10, auxLen := 10, dstAddr := 0x3000 })
      (fun t => (t.mem, t.statusWord)) = some ([], 0x00000056#32) := by decide +kernel

theorem test_rehash_example (be : Bool) :
    after (exec .rehash
      { fresh be with
        dstAddr := 0x3000
        mem := Memory.writeBytes [] 0x3000 [0xd1, 0x85, 0x42, 0x18, 0xeb, 0xbb, 0x0b, 0x51] })
      (fun t => t.mem.readBytes 0x3000 8) = some [0x63, 0x47, 0x3e, 0xf0, 0x1c, 0xd0, 0xb4, 0x44] := by
  cases be <;> decide +kernel
theorem test_rehash_past_the_top : after (exec .rehash { fresh false with dstAddr := 0xfffffff9 })
    (fun t => (t.mem, t.statusWord)) = some ([], 0x0000004c#32) := by decide

/-! ### One step of the machine -/

theorem test_fetch_word_runs : after (step (State.reset.withFetchWord 32 1)) (fun t => (t.phase, t.host)) =
    some (Phase.empty, []) := by decide
theorem test_illegal_word_status : after (step { fresh false with host := [.regWrite 0 32 0] }) (fun t => t.statusWord) =
    some 0x00000044#32 := by decide
theorem test_cfg_reads_be : after (step { fresh true with host := [readLine 7] }) (fun t => t.reply) =
    some (some (.word 1#32)) := by decide
theorem test_memory_unlisted_after_zero : Memory.write [(5, 1)] 5 0 = [] := by decide
theorem test_core_step : core.step core.reset = .next State.reset := rfl

/-! ### Witnesses: for every statement with hypotheses, a state and operands that meet them all -/

/-- A live context holding "abc", the source buffer and the digest ending at the top of MEM. -/
def live : State :=
  { fresh false with
    ctx := abcCtx
    phase := .accumulating
    srcAddr := 0xfffffff0
    srcLen := 0x10
    auxAddr := 0x1000
    auxLen := 3
    dstAddr := 0xfffffff0
    mem := abcMem }

/-- The same with the key ending at the top of MEM. -/
def liveKey : State := { live with dstAddr := 0xfffffff8 }

/-- The same with `BE`, a scratch buffer of exactly the size needed, and a hole at 0x5000. -/
def liveGuarded : State := { liveKey with cfg := guarded.cfg, srcAddr := 0x1000, srcLen := 13 }

/-- A machine whose host's next access is `a`. -/
def facing (a : HostAccess) (s : State) : State := { s with host := [a] }

/-- A CMD write always has a next state. -/
theorem step_facing_command (w : Word) (s : State) : ∃ t, step (facing (.regWrite 0 32 w) s) = .next t :=
  launch_total w ((facing (.regWrite 0 32 w) s).takeAccess [])

theorem witness_IllegalWordsAreRefused (w : Word) (h : w = 0x00000102#32 ∨ w = 0#32 ∨ w = 7#32 ∨ w = 0xff#32) :
    (facing (.regWrite 0 32 w) live).host = .regWrite 0 32 w :: [] ∧
      (w.extractLsb' 8 24 ≠ 0 ∨ w.extractLsb' 0 8 = 0 ∨ 0x07#8 ≤ w.extractLsb' 0 8) := by
  refine ⟨rfl, ?_⟩
  rcases h with rfl | rfl | rfl | rfl <;> decide

theorem witness_DecodeInvertsEncode : decode 6#32 = .ok .rehash := by decide

theorem witness_StepRunsDecodedCommand :
    (facing (.regWrite 0 32 5) live).host = .regWrite 0 32 5 :: [] ∧ decode 5 = .ok .keycrunch := ⟨rfl, by decide⟩

theorem witness_IdleEngineHoldsItsState : live.host = [] := rfl

theorem witness_EveryAccessCompletes : ∀ a rest, (facing (.regWrite 7 32 1) live).host = a :: rest → a.wellFormed = true := by
  intro a rest h
  cases h
  rfl

theorem witness_AccessesOutsideThePortStop_number :
    (facing (.regRead 8 32) live).host = .regRead 8 32 :: [] ∧ 8 ≤ 8 := ⟨rfl, Nat.le_refl _⟩
theorem witness_AccessesOutsideThePortStop_width :
    (facing (.regWrite 7 16 1) live).host = .regWrite 7 16 1 :: [] ∧ 7 < 8 ∧ 16 ≠ 32 := ⟨rfl, by decide, by decide⟩

theorem witness_ResetLeavesZeros : (facing .reset live).host = .reset :: [] := rfl

/-- `live` meets the invariant, with a context that is not zero. -/
theorem live_inv : live.Inv where
  mem_wf := by decide
  wiped := by decide
  kd_zero := by decide
  whole_bytes := by decide
  sticky_err := by decide

theorem witness_StepKeepsTheInvariant :
    (facing (.regWrite 0 32 3) live).Inv ∧ ∃ t, step (facing (.regWrite 0 32 3) live) = .next t :=
  ⟨⟨live_inv.mem_wf, live_inv.wiped, live_inv.kd_zero, live_inv.whole_bytes, live_inv.sticky_err⟩, step_facing_command _ _⟩

theorem witness_StepKeepsTheConfiguration : ∃ t, step (facing (.regWrite 0 32 3) live) = .next t := step_facing_command _ _

theorem witness_RegisterReads (n : Nat) (h : n < 8) : (facing (.regRead n 32) live).host = .regRead n 32 :: [] ∧ n < 8 :=
  ⟨rfl, h⟩

theorem witness_RegisterWrites (n : Nat) : (facing (.regWrite n 32 9) live).host = .regWrite n 32 9 :: [] := rfl

theorem witness_ErrAndStickyRule_launch : (∃ t, launch 3 live = .next t) ∧ ∃ t, launch 0 live = .next t :=
  ⟨launch_total _ _, launch_total _ _⟩
theorem witness_ErrAndStickyRule_access :
    ((facing (.regWrite 7 32 1) live).host = .regWrite 7 32 1 :: [] ∧ 7 ≠ 0 ∧
      ∃ t, step (facing (.regWrite 7 32 1) live) = .next t) ∧
    (facing (.regRead 0 32) live).host = .regRead 0 32 :: [] ∧ ∃ t, step (facing (.regRead 0 32) live) = .next t :=
  ⟨⟨rfl, by decide, _, rfl⟩, rfl, _, rfl⟩
theorem witness_ErrAndStickyRule_clear :
    ∃ t, step (facing .reset { live with sticky := true }) = .next t ∧
      (facing .reset { live with sticky := true }).sticky = true ∧ t.sticky = false := ⟨_, rfl, rfl, rfl⟩

/-! The clauses of RefusalPriority: for each command, the states that meet each clause's conditions. -/

/-- The validity of the `n` bytes from `a` upwards, as the statements write it. -/
abbrev bytesValid (s : State) (a : Word) (n : Nat) (kind : AccessKind) : Prop :=
  ∀ i, i < n → memValid s.cfg (a.toNat + i) kind = true

theorem witness_RefusalPriority_word : decode 0 = .error .unassignedOpcode ∧ ∃ t, launch 0 live = .next t :=
  ⟨by decide, launch_total _ _⟩
theorem witness_RefusalPriority_phase : (fresh true).phase = .finalized ∧ ∃ t, exec .final (fresh true) = .next t :=
  ⟨rfl, exec_total _ _⟩
theorem witness_RefusalPriority_update_range :
    let s := { live with srcLen := 0x11 }
    s.phase ≠ .finalized ∧ ¬ (s.srcLen.toNat = 0 ∨ s.srcAddr.toNat + s.srcLen.toNat ≤ 2 ^ 32) := by decide
theorem witness_RefusalPriority_update_valid :
    let s := { liveGuarded with srcAddr := 0x4fff, srcLen := 2 }
    s.phase ≠ .finalized ∧ (s.srcLen.toNat = 0 ∨ s.srcAddr.toNat + s.srcLen.toNat ≤ 2 ^ 32) ∧
      ¬ bytesValid s s.srcAddr s.srcLen.toNat .read := by decide
theorem witness_RefusalPriority_update_ok :
    live.phase ≠ .finalized ∧ (live.srcLen.toNat = 0 ∨ live.srcAddr.toNat + live.srcLen.toNat ≤ 2 ^ 32) ∧
      bytesValid live live.srcAddr live.srcLen.toNat .read := by decide
theorem witness_RefusalPriority_final_range :
    let s := { live with dstAddr := 0xfffffff1 }
    s.phase ≠ .finalized ∧ ¬ s.dstAddr.toNat + 16 ≤ 2 ^ 32 := by decide
theorem witness_RefusalPriority_final_valid :
    let s := { liveGuarded with dstAddr := 0x4ff1 }
    s.phase ≠ .finalized ∧ s.dstAddr.toNat + 16 ≤ 2 ^ 32 ∧ ¬ bytesValid s s.dstAddr 16 .write := by decide
theorem witness_RefusalPriority_final_ok :
    let s := { liveGuarded with dstAddr := 0x4ff0 }
    s.phase ≠ .finalized ∧ s.dstAddr.toNat + 16 ≤ 2 ^ 32 ∧ bytesValid s s.dstAddr 16 .write := by decide
theorem witness_RefusalPriority_keycrunch_range :
    let s := { liveGuarded with auxAddr := 0xffffffff, auxLen := 2 }
    ¬ (s.auxLen.toNat = 0 ∨ s.auxAddr.toNat + s.auxLen.toNat ≤ 2 ^ 32) := by decide
theorem witness_RefusalPriority_keycrunch_valid :
    let s := { liveGuarded with dstAddr := 0x4ff9 }
    (s.srcLen.toNat = 0 ∨ s.srcAddr.toNat + s.srcLen.toNat ≤ 2 ^ 32) ∧
      (s.auxLen.toNat = 0 ∨ s.auxAddr.toNat + s.auxLen.toNat ≤ 2 ^ 32) ∧ s.dstAddr.toNat + 8 ≤ 2 ^ 32 ∧
      ¬ bytesValid s s.dstAddr 8 .write := by decide
theorem witness_RefusalPriority_keycrunch_scratch :
    let s := { liveGuarded with srcLen := 14 }
    ((s.srcLen.toNat = 0 ∨ s.srcAddr.toNat + s.srcLen.toNat ≤ 2 ^ 32) ∧
      (s.auxLen.toNat = 0 ∨ s.auxAddr.toNat + s.auxLen.toNat ≤ 2 ^ 32) ∧ s.dstAddr.toNat + 8 ≤ 2 ^ 32) ∧
      (bytesValid s s.srcAddr s.srcLen.toNat .read ∧ bytesValid s s.auxAddr s.auxLen.toNat .read ∧
        bytesValid s s.dstAddr 8 .write) ∧
      ¬ ∀ n, s.cfg.scratchBytes = some n → s.srcLen.toNat + s.auxLen.toNat ≤ n :=
  ⟨by decide, by decide, fun h => absurd (h 16 rfl) (by decide)⟩
theorem witness_RefusalPriority_rehash_range : ¬ ({ live with dstAddr := 0xfffffff9 } : State).dstAddr.toNat + 8 ≤ 2 ^ 32 := by
  decide
theorem witness_RefusalPriority_rehash_valid :
    let s := { liveGuarded with dstAddr := 0x5000 }
    s.dstAddr.toNat + 8 ≤ 2 ^ 32 ∧ ¬ (bytesValid s s.dstAddr 8 .read ∧ bytesValid s s.dstAddr 8 .write) := by decide
theorem witness_RefusalPriority_rehash_ok :
    liveGuarded.dstAddr.toNat + 8 ≤ 2 ^ 32 ∧ bytesValid liveGuarded liveGuarded.dstAddr 8 .read ∧
      bytesValid liveGuarded liveGuarded.dstAddr 8 .write := by decide

/-- A completed step of each command, and a refused one. -/
theorem witness_LifecycleTable_completes (i : Instr) : ∃ t, exec i liveKey = .next t := exec_total i liveKey
theorem witness_LifecycleTable_refused : (fresh true).phase = .finalized ∧
    ∃ t, exec .wipe (fresh true) = .next t ∧ t.err ≠ .ok := ⟨rfl, _, rfl, by decide⟩

theorem witness_OnlyInitStartsAContext :
    ∃ t, step (facing (.regWrite 0 32 1) (fresh true)) = .next t ∧ (fresh true).phase = .finalized ∧ t.phase ≠ .finalized :=
  ⟨_, rfl, rfl, by decide⟩

theorem witness_EmptyAndAccumulatingBehaveAlike : ∃ t, exec .update { live with phase := .empty } = .next t :=
  exec_total _ _

theorem witness_FrameOfCommandsThatStoreNothing (i : Instr) (h : i = .init ∨ i = .update ∨ i = .wipe) :
    (i = .init ∨ i = .update ∨ i = .wipe) ∧ ∃ t, exec i live = .next t := ⟨h, exec_total i live⟩
theorem witness_FrameOfFinal : (∃ t, exec .final live = .next t) ∧
    0xffffffef < live.digestSpan.addr.toNat ∧ live.digestSpan.addr.toNat + 16 ≤ 0x100000000 :=
  ⟨exec_total _ _, by decide, by decide⟩
theorem witness_FrameOfKeyCommands (i : Instr) (h : i = .keycrunch ∨ i = .rehash) :
    (i = .keycrunch ∨ i = .rehash) ∧ (∃ t, exec i liveKey = .next t) ∧
      0xfffffff7 < liveKey.keySpan.addr.toNat ∧ liveKey.keySpan.addr.toNat + 8 ≤ 0x100000000 :=
  ⟨h, exec_total i liveKey, by decide, by decide⟩

theorem witness_OperandRegistersChangeOnlyByTheHost :
    ∃ t, step (facing (.regWrite 6 32 7) live) = .next t ∧ 2 ≤ 6 ∧ 6 ≤ 6 ∧ t.operand 6 ≠ (facing (.regWrite 6 32 7) live).operand 6 :=
  ⟨_, rfl, by decide, by decide, by decide⟩

theorem witness_ContextChangesOnlyByItsCommands :
    ∃ t, step (facing (.regWrite 0 32 4) live) = .next t ∧
      (t.ctx ≠ (facing (.regWrite 0 32 4) live).ctx ∨ t.phase ≠ (facing (.regWrite 0 32 4) live).phase) :=
  ⟨_, rfl, .inr (by decide)⟩

theorem witness_MemoryReadsWhatWasWritten :
    live.mem.wf = true ∧ 0xfffffffd + [1#8, 0#8, 2#8].length ≤ 2 ^ 32 ∧ 0xfffffffc < 0xfffffffd := by decide

theorem witness_HostStoresAreSeen :
    ({ live with host := [.memStore 0xffffffff 9, .memLoad 0xffffffff] } : State).mem.wf = true ∧
      ({ live with host := [.memStore 0xffffffff 9, .memLoad 0xffffffff] } : State).host =
        .memStore 0xffffffff 9 :: .memLoad 0xffffffff :: [] := ⟨by decide, rfl⟩

theorem witness_NormalizedWordsAreLittleEndian : 4 * 16 ≤ abcCtx.buf.bytes.length ∧ 15 < 16 := by decide
theorem witness_RotationMovesEveryBit : (1 ≤ 31 ∧ 31 ≤ 31 ∧ 31 < 32) ∧ (1 ≤ 1 ∧ 1 ≤ 31 ∧ 0 < 32) := by decide
theorem witness_AdvanceCarriesIntoTheHighHalf :
    (0xfffffff8#32).toNat + ((1#32 : Word) <<< 3).toNat ≥ 2 ^ 32 ∧ ¬ (0xfffffff0#32).toNat + ((1#32 : Word) <<< 3).toNat ≥ 2 ^ 32 := by
  decide
theorem witness_LowerAndMaskByteByByte : 0 < [0x5a#8].length ∧ 0x41 ≤ ([0x5a#8].getD 0 0).toNat ∧ ([0x5a#8].getD 0 0).toNat ≤ 0x5A := by
  decide

theorem live_updateReady : live.UpdateReady := ⟨by decide, by decide, by decide⟩

/-- The context of `live` holds the message "abc". -/
theorem live_holds : live.ctx.Holds [0x61, 0x62, 0x63] := ⟨by decide, by decide, rfl⟩

theorem witness_UpdateFoldsBlocks : live.UpdateReady := live_updateReady
theorem witness_UpdateShortFill : ({ live with srcAddr := 0xffffffc4, srcLen := 60 } : State).UpdateReady ∧
    live.ctx.pending ≠ 0 ∧ (60#32).toNat < 64 - live.ctx.pending :=
  ⟨⟨by decide, by decide, by decide⟩, by decide, by decide⟩
theorem witness_UpdateOfLengthZero : ({ live with srcLen := 0 } : State).phase ≠ .finalized ∧
    ({ live with srcLen := 0 } : State).srcLen = 0 := by decide
theorem witness_UpdateExtendsTheMessage : live.UpdateReady ∧ live.ctx.Holds [0x61, 0x62, 0x63] :=
  ⟨live_updateReady, live_holds⟩
theorem witness_InitHoldsTheEmptyMessage : ∃ t, exec .init live = .next t := exec_total _ _

theorem live_finalReady : live.FinalReady := ⟨by decide, by decide, by decide⟩
theorem witness_FinalPadsAndWipes : live.FinalReady := live_finalReady
theorem witness_FinalWritesTheMessageDigest : live.FinalReady ∧ live.ctx.Holds [0x61, 0x62, 0x63] :=
  ⟨live_finalReady, live_holds⟩

theorem witness_DigestIsIndependentOfTheSplit :
    (∀ p ∈ [((0x1000 : Word), (1 : Word)), (0x1001, 0), (0xffffffff, 1)], live.chunkOk p) ∧
      (0xfffffff0#32).toNat + 16 ≤ 2 ^ 32 ∧ ∀ i, i < 16 → memValid live.cfg ((0xfffffff0#32).toNat + i) .write = true := by
  refine ⟨?_, by decide, by decide⟩
  intro p hp
  simp only [List.mem_cons, List.not_mem_nil, or_false] at hp
  rcases hp with rfl | rfl | rfl <;> exact ⟨by decide, by decide⟩

theorem witness_WipeClearsTheContext : live.phase ≠ .finalized ∧ (fresh true).phase = .finalized := by decide
theorem witness_FoldByteByByte : (List.replicate 16 7#8).length = 16 := by decide

theorem liveGuarded_crunchReady : liveGuarded.CrunchReady where
  seedRange := by decide
  passRange := by decide
  keyRange := by decide
  seedValid := by decide
  passValid := by decide
  keyValid := by decide
  fits := by
    intro n h
    cases h
    decide
theorem liveGuarded_rehashReady : liveGuarded.RehashReady := ⟨by decide, by decide, by decide⟩

theorem witness_KeycrunchWritesTheKey : liveGuarded.CrunchReady := liveGuarded_crunchReady
theorem witness_RehashReplacesTheKey : liveGuarded.RehashReady := liveGuarded_rehashReady

/-- "ABC" as seed on one machine, "abc" on the other, the same passphrase. -/
theorem witness_KeyDependsOnSeedAndPassphraseOnly :
    let s := { liveGuarded with mem := [(0x1000, 0x41), (0x1001, 0x42), (0x1002, 0x43)], srcLen := 3, auxLen := 0 }
    let s' := { liveGuarded with srcLen := 3, auxAddr := 0xffffffff, auxLen := 0, dstAddr := 0x3000 }
    s.CrunchReady ∧ s'.CrunchReady ∧ lower s.seed = lower s'.seed ∧ s.passphrase = s'.passphrase := by
  refine ⟨⟨by decide, by decide, by decide, by decide, by decide, by decide, ?_⟩,
    ⟨by decide, by decide, by decide, by decide, by decide, by decide, ?_⟩, by decide, by decide⟩ <;>
  (intro n h; cases h; decide)

theorem witness_RehashChains : liveGuarded.mem.wf = true ∧ liveGuarded.RehashReady :=
  ⟨by decide, liveGuarded_rehashReady⟩

/-- The other byte order, another stale tail, another `K`. -/
theorem witness_ByteOrderAndStaleBytesAreInvisible :
    let s := facing (.regWrite 0 32 3) live
    let s' := { facing (.regWrite 0 32 3) live with
      cfg := { live.cfg with be := true }, ctx := { abcCtx with buf := abcCtx.buf.put 3 [9] }, kd := abcCtx }
    s.SameButOrder s' ∧ s.reply = s'.reply ∧ (∀ rest, s.host ≠ .regRead 7 32 :: rest) ∧ ∃ t, step s = .next t := by
  refine ⟨⟨rfl, rfl, rfl, rfl, rfl, by decide, rfl, rfl, rfl, rfl, rfl, rfl, rfl, rfl, rfl, rfl, rfl⟩, rfl, ?_,
    step_facing_command _ _⟩
  intro rest h
  cases h
theorem witness_ByteOrderAndStaleBytesAreInvisible_fault :
    step (facing (.regRead 8 32) live) = .fault (.noSuchRegister 8) := rfl

theorem witness_ContextIsExposedOnlyByFinal : ¬ (facing (.regWrite 0 32 2) live).nextIsCommand 0x00000003#32 ∧
    ∃ t, step (facing (.regWrite 0 32 2) live) = .next t := by
  refine ⟨?_, step_facing_command _ _⟩
  rintro (⟨rest, h⟩ | ⟨rest, h⟩) <;> cases h

theorem witness_ResetInsideACommand :
    (facing (.cutCommand 3) live).mem.wf = true ∧ (facing (.cutCommand 3) live).host = .cutCommand 3 :: [] :=
  ⟨by decide, rfl⟩

end Sys2Proof.Tests
end

namespace Sys2Proof.Machine

open Sys2Proof

/-! ### The scope of a step (00_scope.md R5, R6) -/

theorem step_of_host_nil {s : State} (h : s.host = []) : step s = .next s := by
  simp only [step, h]

theorem exec_cfg {i : Instr} {s t : State} (h : exec i s = .next t) : t.cfg = s.cfg := by
  obtain ⟨-, -, -, -, -, hcfg, -⟩ := exec_frame i h
  exact hcfg

theorem launch_cfg {w : Word} {s t : State} (h : launch w s = .next t) : t.cfg = s.cfg := by
  obtain ⟨i, -, hexec⟩ | ⟨-, rfl⟩ := launch_next h
  · exact exec_cfg hexec
  · exact refuse_cfg s _

/-- Reset included: the configuration belongs to the platform, so reset hands it on (10_state.md R38). -/
theorem perform_cfg {a : HostAccess} {s t : State} (h : perform a s = .next t) : t.cfg = s.cfg := by
  obtain ⟨w, -, hlaunch⟩ | ⟨n, v, -, -, -, rfl⟩ | ⟨n, -, -, rfl⟩ | ⟨x, b, -, rfl⟩ | ⟨x, -, rfl⟩ | ⟨-, rfl⟩ |
    ⟨w, -, rfl⟩ := perform_next h
  case inl => exact launch_cfg hlaunch
  case inr.inl => exact setOperand_cfg s n v
  all_goals rfl

/-- Settles O12: an idle step keeps the whole state, and no access of the host reaches the configuration. -/
theorem stepKeepsTheConfiguration : Obligations.StepKeepsTheConfiguration := by
  intro s t h
  obtain ⟨-, rfl⟩ | ⟨a, rest, -, hperform⟩ := step_next h
  · rfl
  · calc t.cfg = (s.takeAccess rest).cfg := perform_cfg hperform
      _ = s.cfg := takeAccess_cfg s rest

/-- Settles O6: with no access in the host's list, the step takes its idle branch. -/
theorem idleEngineHoldsItsState : Obligations.IdleEngineHoldsItsState :=
  fun _ hidle => step_of_host_nil hidle

end Sys2Proof.Machine

namespace Sys2Proof.Machine

open Sys2Proof

/-! ### The forward rules of a step: one equation per access (10_state.md R27 to R31) -/

theorem step_of_host_cons {s : State} {a : HostAccess} {rest : List HostAccess} (h : s.host = a :: rest) :
    step s = perform a (s.takeAccess rest) := by
  simp only [step, h]

theorem portCheck_of_port {n : Nat} (h : n < 8) : portCheck n 32 = none := by
  simp [portCheck, h]

theorem portCheck_of_noRegister {n : Nat} (width : Nat) (h : 8 ≤ n) :
    portCheck n width = some (.noSuchRegister n) := by
  simp [portCheck, h]

theorem portCheck_of_notWholeWord {n width : Nat} (h : n < 8) (hw : width ≠ 32) :
    portCheck n width = some (.notWholeWord width) := by
  simp [portCheck, h, hw]

theorem perform_regWrite_of_portCheck {n width : Nat} {f : Fault} (h : portCheck n width = some f) (v : Word)
    (s : State) : perform (.regWrite n width v) s = .fault f := by
  simp only [perform, h]

theorem perform_regRead_of_portCheck {n width : Nat} {f : Fault} (h : portCheck n width = some f) (s : State) :
    perform (.regRead n width) s = .fault f := by
  simp only [perform, h]

@[simp] theorem perform_command (w : Word) (s : State) : perform (.regWrite 0 32 w) s = launch w s := rfl

theorem perform_regWrite {n : Nat} (h0 : 0 < n) (h8 : n < 8) (v : Word) (s : State) :
    perform (.regWrite n 32 v) s = .next (s.setOperand n v) := by
  simp only [perform, portCheck_of_port h8, State.regWrite, Nat.ne_of_gt h0, if_false]

theorem perform_regRead {n : Nat} (h8 : n < 8) (s : State) :
    perform (.regRead n 32) s = .next { s with reply := some (.word (s.regRead n)) } := by
  simp only [perform, portCheck_of_port h8]

theorem launch_of_decode {w : Word} {i : Instr} (h : decode w = .ok i) (s : State) : launch w s = exec i s := by
  simp only [launch, h]

theorem launch_of_illegal {w : Word} {e : IllegalWord} (h : decode w = .error e) (s : State) :
    launch w s = .next (s.refuse .illegalCmd) := by
  simp only [launch, h]

theorem exec_of_pass {i : Instr} {s : State} (h : firstError (checksOf i s) = none) :
    exec i s = .next (completedBy i s) := by
  rw [exec_eq, h]

theorem exec_of_fail {i : Instr} {s : State} {code : ErrCode} (h : firstError (checksOf i s) = some code) :
    exec i s = .next (s.refuse code) := by
  rw [exec_eq, h]

/-! ### The invariant of every step (10_state.md R22, R26, R34, R40) -/

/-- The invariant speaks of MEM, PHASE, the two contexts, ERR and STICKY only. -/
theorem State.Inv.of_sameContexts {s t : State} (hs : s.Inv) (hmem : t.mem.wf = true) (hphase : t.phase = s.phase)
    (hctx : t.ctx = s.ctx) (hkd : t.kd = s.kd) (hsticky : t.err ≠ .ok → t.sticky = true) : t.Inv where
  mem_wf := hmem
  wiped := by rw [hphase, hctx]; exact hs.wiped
  kd_zero := hkd.trans hs.kd_zero
  whole_bytes := by rw [hctx]; exact hs.whole_bytes
  sticky_err := hsticky

theorem resetWith_inv (cfg : Config) : (State.resetWith cfg).Inv where
  mem_wf := reset_mem_wf cfg
  wiped := fun _ => rfl
  kd_zero := rfl
  whole_bytes := rfl
  sticky_err := fun herr => absurd rfl herr

/-- Reset gives the invariant whatever the engine held; of the state before, only MEM is left to ask about. -/
theorem resetEngine_inv {s : State} (hmem : s.mem.wf = true) : s.resetEngine.Inv :=
  (resetWith_inv s.cfg).of_sameContexts hmem rfl rfl rfl fun herr => absurd rfl herr

theorem refuse_inv {s : State} (code : ErrCode) (hs : s.Inv) : (s.refuse code).Inv :=
  hs.of_sameContexts hs.mem_wf rfl rfl rfl fun _ => rfl

/-- ADVANCE adds whole bytes to the bit counter. -/
theorem advance_bitsLo_mod (len : Nat) (c : Context) : (c.advance len).bitsLo.toNat % 8 = c.bitsLo.toNat % 8 := by
  simp only [Context.advance, BitVec.toNat_add, BitVec.toNat_ofNat]
  omega

/-- Of UPDATE, only its ADVANCE writes the bit counter. -/
theorem update_bitsLo (be : Bool) (data : List Byte) (c : Context) :
    (c.update be data).bitsLo = (c.advance data.length).bitsLo := by
  simp only [Context.update]
  split
  · split
    · rfl
    · rw [(blocks_spec be _ _ _ (by simp only [List.length_drop]; omega)).bitsLo, absorb_bitsLo, put_bitsLo]
  · exact (blocks_spec be _ _ _ (Nat.le_refl _)).bitsLo

theorem completedBy_wiped {i : Instr} {s : State} (hs : s.Inv) (h : (completedBy i s).phase = .finalized) :
    (completedBy i s).ctx = Context.zero := by
  cases i
  case init => exact absurd h (by simp [completedBy])
  case update => exact absurd h (by simp [completedBy])
  case final => rfl
  case wipe => rfl
  case keycrunch => exact hs.wiped h
  case rehash => exact hs.wiped h

theorem completedBy_kd {i : Instr} {s : State} (hs : s.Inv) : (completedBy i s).kd = Context.zero := by
  cases i
  case keycrunch => rfl
  case rehash => rfl
  all_goals exact hs.kd_zero

theorem completedBy_whole_bytes {i : Instr} {s : State} (hs : s.Inv) :
    (completedBy i s).ctx.bitsLo.toNat % 8 = 0 := by
  cases i
  case update =>
    calc (s.ctx.update s.cfg.be s.message).bitsLo.toNat % 8
        = (s.ctx.advance s.message.length).bitsLo.toNat % 8 := by rw [update_bitsLo]
      _ = s.ctx.bitsLo.toNat % 8 := advance_bitsLo_mod _ _
      _ = 0 := hs.whole_bytes
  case keycrunch => exact hs.whole_bytes
  case rehash => exact hs.whole_bytes
  all_goals rfl

theorem exec_inv {i : Instr} {s t : State} (hs : s.Inv) (h : exec i s = .next t) : t.Inv := by
  obtain ⟨-, rfl⟩ | ⟨code, -, -, -, rfl⟩ := exec_cases i h
  · exact
      { mem_wf := exec_mem_wf i h hs.mem_wf
        wiped := completedBy_wiped hs
        kd_zero := completedBy_kd hs
        whole_bytes := completedBy_whole_bytes hs
        sticky_err := fun herr => absurd (completedBy_err i s) herr }
  · exact refuse_inv code hs

theorem launch_inv {w : Word} {s t : State} (hs : s.Inv) (h : launch w s = .next t) : t.Inv := by
  obtain ⟨i, -, hexec⟩ | ⟨-, rfl⟩ := launch_next h
  · exact exec_inv hs hexec
  · exact refuse_inv _ hs

theorem setOperand_inv {s : State} (n : Nat) (v : Word) (hs : s.Inv) : (s.setOperand n v).Inv :=
  hs.of_sameContexts (by simpa using hs.mem_wf) (setOperand_phase s n v) (setOperand_ctx s n v)
    (setOperand_kd s n v) (by simpa using hs.sticky_err)

theorem perform_inv {a : HostAccess} {s t : State} (hs : s.Inv) (h : perform a s = .next t) : t.Inv := by
  obtain ⟨w, -, hlaunch⟩ | ⟨n, v, -, -, -, rfl⟩ | ⟨n, -, -, rfl⟩ | ⟨x, b, -, rfl⟩ | ⟨x, -, rfl⟩ | ⟨-, rfl⟩ |
    ⟨w, -, rfl⟩ := perform_next h
  · exact launch_inv hs hlaunch
  · exact setOperand_inv n v hs
  · exact hs.of_sameContexts hs.mem_wf rfl rfl rfl hs.sticky_err
  · exact hs.of_sameContexts (write_wf _ _ _ x.isLt hs.mem_wf) rfl rfl rfl hs.sticky_err
  · exact hs.of_sameContexts hs.mem_wf rfl rfl rfl hs.sticky_err
  · exact resetEngine_inv hs.mem_wf
  · have hreset := resetEngine_inv hs.mem_wf
    exact hreset.of_sameContexts (cutMemory_wf s w hs.mem_wf) rfl rfl rfl hreset.sticky_err

theorem takeAccess_inv {s : State} (rest : List HostAccess) (hs : s.Inv) : (s.takeAccess rest).Inv :=
  hs.of_sameContexts hs.mem_wf rfl rfl rfl hs.sticky_err

/-- Settles O11: the host's access leaves the contexts, MEM, ERR and STICKY as they are, and then every access keeps
the invariant. The counter stays a multiple of 8 because only ADVANCE adds to it. -/
theorem stepKeepsTheInvariant : Obligations.StepKeepsTheInvariant := by
  intro s t hs h
  obtain ⟨-, rfl⟩ | ⟨a, rest, -, hperform⟩ := step_next h
  · exact hs
  · exact perform_inv (takeAccess_inv rest hs) hperform

/-- Settles O10: with a zero context, a zero `K`, no error and an empty MEM, the reset state meets every clause. -/
theorem resetMeetsTheInvariant : Obligations.ResetMeetsTheInvariant := resetWith_inv

/-! ### ERR and STICKY (10_state.md R40) -/

/-- The two ends of a CMD write: ERR 0 with STICKY kept, or an error code with STICKY set. -/
theorem launch_err_sticky {w : Word} {s t : State} (h : launch w s = .next t) :
    (t.err = .ok ∧ t.sticky = s.sticky) ∨ (t.err ≠ .ok ∧ t.sticky = true) := by
  obtain ⟨i, -, hexec⟩ | ⟨-, rfl⟩ := launch_next h
  · obtain ⟨-, rfl⟩ | ⟨code, -, hcode, -, rfl⟩ := exec_cases i hexec
    · exact .inl ⟨completedBy_err i s, completedBy_sticky i s⟩
    · exact .inr ⟨hcode, rfl⟩
  · exact .inr ⟨ErrCode.noConfusion, rfl⟩

theorem perform_regWrite_err_sticky {n width : Nat} {v : Word} {s t : State} (hn : n ≠ 0)
    (h : perform (.regWrite n width v) s = .next t) : t.err = s.err ∧ t.sticky = s.sticky := by
  obtain ⟨-, -, -, rfl⟩ : width = 32 ∧ 0 < n ∧ n < 8 ∧ t = s.setOperand n v := by
    simpa [hn] using perform_next h
  exact ⟨setOperand_err s n v, setOperand_sticky s n v⟩

theorem perform_regRead_err_sticky {n width : Nat} {s t : State} (h : perform (.regRead n width) s = .next t) :
    t.err = s.err ∧ t.sticky = s.sticky := by
  obtain ⟨-, -, rfl⟩ : width = 32 ∧ n < 8 ∧ t = { s with reply := some (.word (s.regRead n)) } := by
    simpa using perform_next h
  exact ⟨rfl, rfl⟩

/-- No check reads ERR or STICKY. -/
theorem checksOf_withErrSticky (i : Instr) (s : State) (e : ErrCode) (k : Bool) :
    checksOf i { s with err := e, sticky := k } = checksOf i s := by
  cases i <;> rfl

/-- No effect reads ERR or STICKY. -/
theorem completedBy_withErrSticky (i : Instr) (s : State) (e : ErrCode) (k : Bool) :
    completedBy i { s with err := e, sticky := k } = { completedBy i s with sticky := k } := by
  cases i <;> rfl

theorem launch_withErrSticky {w : Word} {s t : State} (e : ErrCode) (k : Bool) (h : launch w s = .next t) :
    launch w { s with err := e, sticky := k } = .next { t with sticky := if t.err = .ok then k else true } := by
  obtain ⟨i, hdecode, hexec⟩ | ⟨⟨_, hdecode⟩, rfl⟩ := launch_next h
  · have hchecks := checksOf_withErrSticky i s e k
    rw [launch_of_decode hdecode]
    obtain ⟨hpass, rfl⟩ | ⟨code, hfail, hcode, -, rfl⟩ := exec_cases i hexec
    · rw [exec_of_pass (hchecks ▸ hpass), completedBy_withErrSticky, if_pos (completedBy_err i s)]
    · rw [exec_of_fail (hchecks ▸ hfail), refuse_err, if_neg hcode]
      rfl
  · exact launch_of_illegal hdecode _

/-- Only the two resets clear STICKY. -/
theorem perform_sticky {a : HostAccess} {s t : State} (h : perform a s = .next t) (hs : s.sticky = true) :
    t.sticky = true ∨ a = .reset ∨ ∃ w, a = .cutCommand w := by
  obtain ⟨w, -, hlaunch⟩ | ⟨n, v, -, -, -, rfl⟩ | ⟨n, -, -, rfl⟩ | ⟨x, b, -, rfl⟩ | ⟨x, -, rfl⟩ | ⟨ha, -⟩ |
    ⟨w, ha, -⟩ := perform_next h
  · obtain ⟨-, hkept⟩ | ⟨-, hset⟩ := launch_err_sticky hlaunch
    · exact .inl (hkept.trans hs)
    · exact .inl hset
  · exact .inl ((setOperand_sticky s n v).trans hs)
  · exact .inl hs
  · exact .inl hs
  · exact .inl hs
  · exact .inr (.inl ha)
  · exact .inr (.inr ⟨w, ha⟩)

/-- Settles O16, clause by clause: the ends of a CMD write, the other register accesses, a launch that reads neither
field, and the two resets as the only events that clear STICKY. -/
theorem errAndStickyRule : Obligations.ErrAndStickyRule := by
  refine ⟨fun s t w h => launch_err_sticky h, ?_, fun s t w e k h => launch_withErrSticky e k h, ?_⟩
  · intro s t n width v rest haccess h
    obtain ⟨hhost, hn⟩ | hhost := haccess
    · rw [step_of_host_cons hhost] at h
      exact perform_regWrite_err_sticky (s := s.takeAccess rest) hn h
    · rw [step_of_host_cons hhost] at h
      exact perform_regRead_err_sticky (s := s.takeAccess rest) h
  · intro s t h hset hclear
    obtain ⟨-, rfl⟩ | ⟨a, rest, hhost, hperform⟩ := step_next h
    · exact absurd (hset.symm.trans hclear) Bool.noConfusion
    · obtain hkept | rfl | ⟨w, rfl⟩ := perform_sticky hperform hset
      · exact absurd (hkept.symm.trans hclear) Bool.noConfusion
      · exact .inl ⟨rest, hhost⟩
      · exact .inr ⟨w, rest, hhost⟩

/-! ### EMPTY and ACCUMULATING (10_state.md R25) -/

/-- The checks ask only whether there is a live context, and both phases have one. -/
theorem checksOf_empty_eq_accumulating (i : Instr) (s : State) :
    checksOf i { s with phase := .empty } = checksOf i { s with phase := .accumulating } := by
  cases i <;> rfl

/-- The effects differ in nothing but a PHASE that the command does not write. -/
theorem completedBy_accumulating (i : Instr) (s : State) :
    ∃ p : Phase, completedBy i { s with phase := .accumulating } =
        { completedBy i { s with phase := .empty } with phase := p } ∧
      (p = (completedBy i { s with phase := .empty }).phase ∨
        ((completedBy i { s with phase := .empty }).phase = .empty ∧ p = .accumulating)) := by
  cases i
  case keycrunch => exact ⟨.accumulating, rfl, .inr ⟨rfl, rfl⟩⟩
  case rehash => exact ⟨.accumulating, rfl, .inr ⟨rfl, rfl⟩⟩
  all_goals exact ⟨_, rfl, .inl rfl⟩

/-- Settles O21: the same checks pass, and the effects agree up to the PHASE that a refusal, KEYCRUNCH and REHASH leave
unwritten. -/
theorem emptyAndAccumulatingBehaveAlike : Obligations.EmptyAndAccumulatingBehaveAlike := by
  intro i s t h
  have hchecks := checksOf_empty_eq_accumulating i s
  obtain ⟨hpass, rfl⟩ | ⟨code, hfail, -, -, rfl⟩ := exec_cases i h
  · obtain ⟨p, heffect, hphase⟩ := completedBy_accumulating i s
    exact ⟨p, by rw [exec_of_pass (hchecks ▸ hpass), heffect], hphase⟩
  · exact ⟨.accumulating, exec_of_fail (hchecks ▸ hfail), .inr ⟨rfl, rfl⟩⟩

/-! ### The operand registers (10_state.md R27) -/

theorem exec_operand {i : Instr} {s t : State} (h : exec i s = .next t) (n : Nat) : t.operand n = s.operand n := by
  obtain ⟨hsrcAddr, hsrcLen, hauxAddr, hauxLen, hdstAddr, -⟩ := exec_frame i h
  simp only [State.operand, hsrcAddr, hsrcLen, hauxAddr, hauxLen, hdstAddr]

theorem launch_operand {w : Word} {s t : State} (h : launch w s = .next t) (n : Nat) :
    t.operand n = s.operand n := by
  obtain ⟨i, -, hexec⟩ | ⟨-, rfl⟩ := launch_next h
  · exact exec_operand hexec n
  · rfl

/-- An access leaves an operand register alone, or is its own write, or is a reset. -/
theorem perform_operand {a : HostAccess} {s t : State} {n : Nat} (h : perform a s = .next t) (h2 : 2 ≤ n)
    (h6 : n ≤ 6) :
    t.operand n = s.operand n ∨ (∃ v, a = .regWrite n 32 v ∧ t.operand n = v) ∨ a = .reset ∨
      ∃ w, a = .cutCommand w := by
  obtain ⟨w, -, hlaunch⟩ | ⟨k, v, ha, -, -, rfl⟩ | ⟨k, -, -, rfl⟩ | ⟨x, b, -, rfl⟩ | ⟨x, -, rfl⟩ | ⟨ha, -⟩ |
    ⟨w, ha, -⟩ := perform_next h
  · exact .inl (launch_operand hlaunch n)
  · by_cases hk : n = k
    · subst hk
      exact .inr (.inl ⟨v, ha, operand_setOperand_same s n v h2 h6⟩)
    · exact .inl (operand_setOperand_other s k n v hk)
  · exact .inl rfl
  · exact .inl rfl
  · exact .inl rfl
  · exact .inr (.inr (.inl ha))
  · exact .inr (.inr (.inr ⟨w, ha⟩))

/-- Settles O25: of all accesses only the register's own write and the two resets can change it. -/
theorem operandRegistersChangeOnlyByTheHost : Obligations.OperandRegistersChangeOnlyByTheHost := by
  intro s t n h h2 h6 hchanged
  obtain ⟨-, rfl⟩ | ⟨a, rest, hhost, hperform⟩ := step_next h
  · exact absurd rfl hchanged
  · obtain hkept | ⟨v, rfl, hv⟩ | rfl | ⟨w, rfl⟩ := perform_operand hperform h2 h6
    · exact absurd hkept hchanged
    · exact .inl ⟨v, rest, hhost, hv⟩
    · exact .inr (.inl ⟨rest, hhost⟩)
    · exact .inr (.inr ⟨w, rest, hhost⟩)

/-! ### The host context is hidden (10_state.md R37) -/

/-- No check reads the host context. -/
theorem checksOf_withCtx (i : Instr) (s : State) (c : Context) : checksOf i { s with ctx := c } = checksOf i s := by
  cases i <;> rfl

/-- Of all commands only FINAL carries the host context into another part of the machine. -/
theorem completedBy_withCtx {i : Instr} (hi : i ≠ .final) (s : State) (c : Context) :
    completedBy i { s with ctx := c } =
      { completedBy i s with ctx := (completedBy i { s with ctx := c }).ctx } := by
  cases i
  case final => exact absurd rfl hi
  all_goals rfl

theorem exec_withCtx {i : Instr} (hi : i ≠ .final) {s t : State} (h : exec i s = .next t) (c : Context) :
    ∃ c' : Context, exec i { s with ctx := c } = .next { t with ctx := c' } := by
  have hchecks := checksOf_withCtx i s c
  obtain ⟨hpass, rfl⟩ | ⟨code, hfail, -, -, rfl⟩ := exec_cases i h
  · exact ⟨_, (exec_of_pass (hchecks ▸ hpass)).trans (congrArg _ (completedBy_withCtx hi s c))⟩
  · exact ⟨c, exec_of_fail (hchecks ▸ hfail)⟩

theorem launch_withCtx {w : Word} (hw : decode w ≠ .ok .final) {s t : State} (h : launch w s = .next t)
    (c : Context) : ∃ c' : Context, launch w { s with ctx := c } = .next { t with ctx := c' } := by
  obtain ⟨i, hdecode, hexec⟩ | ⟨⟨_, hdecode⟩, rfl⟩ := launch_next h
  · rw [launch_of_decode hdecode]
    exact exec_withCtx (fun hi => hw (hi ▸ hdecode)) hexec c
  · exact ⟨c, launch_of_illegal hdecode _⟩

/-- What a cut command leaves in MEM depends on MEM, ERR and the operands of the command's own outcome. -/
theorem cutMemory_withCtx {w : Word} (hw : decode w ≠ .ok .final) (s : State) (c : Context) :
    ({ s with ctx := c } : State).cutMemory w = s.cutMemory w := by
  cases hdecode : decode w with
  | error e => simp only [State.cutMemory, hdecode]
  | ok i =>
    obtain ⟨u, hu⟩ := exec_total i s
    obtain ⟨c', hu'⟩ := exec_withCtx (fun hi => hw (hi ▸ hdecode)) hu c
    simp only [State.cutMemory, hdecode, hu, hu']

theorem setOperand_withCtx (s : State) (c : Context) (n : Nat) (v : Word) :
    ({ s with ctx := c } : State).setOperand n v = { s.setOperand n v with ctx := c } := by
  unfold State.setOperand
  split <;> rfl

/-- One access, FINAL and a cut FINAL aside, on two machines that differ in the host context. -/
theorem perform_withCtx {a : HostAccess} {s t : State} (c : Context)
    (hcmd : ∀ w, a = .regWrite 0 32 w ∨ a = .cutCommand w → decode w ≠ .ok .final) (h : perform a s = .next t) :
    ∃ c' : Context, perform a { s with ctx := c } = .next { t with ctx := c' } := by
  obtain ⟨w, rfl, hlaunch⟩ | ⟨n, v, rfl, h0, h8, rfl⟩ | ⟨n, rfl, h8, rfl⟩ | ⟨x, b, rfl, rfl⟩ | ⟨x, rfl, rfl⟩ |
    ⟨rfl, rfl⟩ | ⟨w, rfl, rfl⟩ := perform_next h
  · exact launch_withCtx (hcmd w (.inl rfl)) hlaunch c
  · exact ⟨c, by rw [perform_regWrite h0 h8, setOperand_withCtx]⟩
  · exact ⟨c, perform_regRead h8 _⟩
  · exact ⟨c, rfl⟩
  · exact ⟨c, rfl⟩
  · exact ⟨Context.zero, rfl⟩
  · exact ⟨Context.zero, by simp only [perform, cutMemory_withCtx (hcmd w (.inr rfl))]; rfl⟩

/-- Settles O56: no check reads the host context, and no effect but FINAL's moves it out of the context itself; the only
word of FINAL is 3. -/
theorem contextIsExposedOnlyByFinal : Obligations.ContextIsExposedOnlyByFinal := by
  intro s t c hcmd h
  obtain ⟨hhost, rfl⟩ | ⟨a, rest, hhost, hperform⟩ := step_next h
  · exact ⟨c, step_of_host_nil hhost⟩
  · rw [step_of_host_cons (s := { s with ctx := c }) hhost]
    refine perform_withCtx c (fun w ha hdecode => hcmd ?_) hperform
    obtain rfl : w = 0x00000003#32 := word_of_decode hdecode
    obtain rfl | rfl := ha
    · exact .inl ⟨rest, hhost⟩
    · exact .inr ⟨rest, hhost⟩

/-! ### The register port -/

/-- Settles O5: a decoded CMD write is `exec` of the command, after the access has left the host's list. -/
theorem stepRunsDecodedCommand : Obligations.StepRunsDecodedCommand := by
  intro s w i rest hhost hdecode
  rw [step_of_host_cons hhost, perform_command, launch_of_decode hdecode]
  rfl

/-- Settles O8: the port check answers before the access does anything, for reads as for writes. -/
theorem accessesOutsideThePortStop : Obligations.AccessesOutsideThePortStop := by
  intro s n width v rest haccess
  have hfault : ∀ f, portCheck n width = some f → step s = .fault f := by
    intro f hcheck
    obtain hhost | hhost := haccess
    · rw [step_of_host_cons hhost, perform_regWrite_of_portCheck hcheck]
    · rw [step_of_host_cons hhost, perform_regRead_of_portCheck hcheck]
  exact ⟨fun h8 => hfault _ (portCheck_of_noRegister width h8),
    fun h8 hwidth => hfault _ (portCheck_of_notWholeWord h8 hwidth)⟩

/-- Settles O9: the step is `resetEngine`, and each field of it has the value of R38's table. -/
theorem resetLeavesZeros : Obligations.ResetLeavesZeros := by
  intro s rest hhost
  refine ⟨(s.takeAccess rest).resetEngine, step_of_host_cons hhost, ?_⟩
  exact ⟨rfl, rfl, rfl, rfl, rfl, rfl, rfl, rfl, rfl, rfl, rfl, rfl, rfl, rfl, rfl, rfl, rfl, rfl, rfl⟩

/-- The value of each register, by its number (10_state.md R28 to R31). -/
theorem regRead_eq (s : State) {n : Nat} (h : n < 8) :
    s.regRead n =
      if n = 0 then 0
      else if n = 1 then BitVec.ofNat 32 (s.phase.code + 4 * s.err.code + 64 * s.sticky.toNat)
      else if n = 2 then s.srcAddr else if n = 3 then s.srcLen else if n = 4 then s.auxAddr
      else if n = 5 then s.auxLen else if n = 6 then s.dstAddr else if s.cfg.be then 1 else 0 := by
  obtain rfl | rfl | rfl | rfl | rfl | rfl | rfl | rfl :
    n = 0 ∨ n = 1 ∨ n = 2 ∨ n = 3 ∨ n = 4 ∨ n = 5 ∨ n = 6 ∨ n = 7 := by omega
  all_goals rfl

/-- Settles O13: a read of a register of the port answers `regRead` and writes nothing but the reply. -/
theorem registerReads : Obligations.RegisterReads := by
  intro s n rest hhost h8
  refine ⟨(s.takeAccess rest).regRead n, ?_, regRead_eq _ h8⟩
  rw [step_of_host_cons hhost, perform_regRead h8]
  rfl

/-- Settles O14: a write of a register from 1 to 7 is `setOperand`, which stores where the number is an operand
register's. -/
theorem registerWrites : Obligations.RegisterWrites := by
  intro s n v rest hhost
  have hstep : 0 < n → n < 8 → step s = .next ((s.takeAccess rest).setOperand n v) := by
    intro h0 h8
    rw [step_of_host_cons hhost, perform_regWrite h0 h8]
  refine ⟨?_, ?_, ?_, ?_, ?_, ?_⟩
  · rintro (rfl | rfl) <;> exact hstep (by decide) (by decide)
  all_goals
    rintro rfl
    exact hstep (by decide) (by decide)

/-! ### The fields of STATUS (10_state.md R25, R29) -/

theorem phase_code_le (p : Phase) : p.code ≤ 2 := by cases p <;> decide

theorem err_code_le (e : ErrCode) : e.code ≤ 5 := by cases e <;> decide

/-- The three fields do not overlap, so STATUS is their sum without a carry out of the word. -/
theorem statusWord_toNat (s : State) :
    s.statusWord.toNat = s.phase.code + 4 * s.err.code + 64 * s.sticky.toNat := by
  have hphase := phase_code_le s.phase
  have herr := err_code_le s.err
  have hsticky := s.sticky.toNat_le
  rw [State.statusWord, BitVec.toNat_ofNat, Nat.mod_eq_of_lt (by omega)]

/-- Settles O15: with PHASE below 4 and ERR below 16, each field of the sum is read back by a quotient and a
remainder. -/
theorem statusFields : Obligations.StatusFields := by
  intro s
  have hsum := statusWord_toNat s
  have hphase := phase_code_le s.phase
  have herr := err_code_le s.err
  have hsticky := s.sticky.toNat_le
  refine ⟨?_, by omega, ?_, herr, ?_, ?_⟩
  · rw [BitVec.extractLsb'_toNat, Nat.shiftRight_eq_div_pow, hsum]
    omega
  · rw [BitVec.extractLsb'_toNat, Nat.shiftRight_eq_div_pow, hsum]
    omega
  · have hbit : s.statusWord.toNat / 2 ^ 6 % 2 = s.sticky.toNat := by omega
    rw [← BitVec.testBit_toNat, Nat.testBit_eq_decide_div_mod_eq, hbit]
    cases s.sticky <;> rfl
  · apply BitVec.eq_of_toNat_eq
    rw [BitVec.extractLsb'_toNat, Nat.shiftRight_eq_div_pow, hsum, BitVec.ofNat_eq_ofNat, BitVec.toNat_zero]
    omega

end Sys2Proof.Machine

namespace Sys2Proof.Machine

open Sys2Proof

/-! ### MEM reads what was written (20_memory.md R51, R64) -/

/-- MemRead of the range that MemWrite has just written returns the bytes: each byte is read back at once, and the
writes after it lie above it. -/
theorem readBytes_writeBytes_same (bs : List Byte) (m : Memory) (a : Nat) (hwf : m.wf = true)
    (hfit : a + bs.length ≤ Config.memBytes) : (m.writeBytes a bs).readBytes a bs.length = bs := by
  induction bs generalizing m a with
  | nil => rfl
  | cons b bs ih =>
    rw [List.length_cons] at hfit
    have hhead : ((m.write a b).writeBytes (a + 1) bs).read a = b := by
      rw [read_writeBytes_outside bs _ _ (.inl (Nat.lt_succ_self a)), read_write_same m a b hwf]
    have htail := ih (m.write a b) (a + 1) (write_wf m a b (by omega) hwf) (by omega)
    exact congrArg₂ List.cons hhead htail

/-- Settles O27: the read-back by induction on the bytes, beside the frame and the canonical form of MemWrite. -/
theorem memoryReadsWhatWasWritten : Obligations.MemoryReadsWhatWasWritten := by
  intro m a bs hwf hfit
  exact ⟨readBytes_writeBytes_same bs m a hwf hfit, writeBytes_wf bs m a hfit hwf,
    fun _ houtside => read_writeBytes_outside bs m a houtside⟩

theorem perform_memStore (addr : Word) (b : Byte) (s : State) :
    perform (.memStore addr b) s = .next { s with mem := s.mem.write addr.toNat b } := rfl

theorem perform_memLoad (addr : Word) (s : State) :
    perform (.memLoad addr) s = .next { s with reply := some (.byte (s.mem.read addr.toNat)) } := rfl

/-- Settles O28: the store puts the byte into MEM, and the load and MemRead both answer the byte at the address. -/
theorem hostStoresAreSeen : Obligations.HostStoresAreSeen := by
  intro s addr b rest hwf hhost
  have hread : (s.mem.write addr.toNat b).read addr.toNat = b := read_write_same s.mem addr.toNat b hwf
  refine ⟨_, _, (step_of_host_cons hhost).trans (perform_memStore addr b _),
    (step_of_host_cons rfl).trans (perform_memLoad addr _), ?_, ?_⟩
  · exact congrArg (fun byte => some (Reply.byte byte)) hread
  · exact congrArg (fun byte => [byte]) hread

/-! ### The frame of the commands (20_memory.md R52, 10_state.md R40) -/

/-- A completed command keeps STICKY, a refused one sets it. -/
theorem exec_sticky {i : Instr} {s t : State} (h : exec i s = .next t) :
    t.sticky = (s.sticky || decide (t.err ≠ .ok)) := by
  obtain ⟨-, rfl⟩ | ⟨code, -, hcode, -, rfl⟩ := exec_cases i h
  · simp [completedBy_err, completedBy_sticky]
  · simp [hcode]

/-- Only the two key commands use the KD unit and its context `K`. -/
theorem exec_kd_of_hostCommand {i : Instr} {s t : State} (hcrunch : i ≠ .keycrunch) (hrehash : i ≠ .rehash)
    (h : exec i s = .next t) : t.kd = s.kd := by
  obtain ⟨-, rfl⟩ | ⟨code, -, -, -, rfl⟩ := exec_cases i h
  · cases i
    case keycrunch => exact absurd rfl hcrunch
    case rehash => exact absurd rfl hrehash
    all_goals rfl
  · rfl

theorem exec_mem_of_no_destination {i : Instr} {s t : State} (hdest : destBytes i = 0) (h : exec i s = .next t) :
    t.mem = s.mem := by
  obtain hsame | ⟨bs, hlength, hmem, -⟩ := exec_mem i h
  · exact hsame
  · obtain rfl : bs = [] := List.eq_nil_of_length_eq_zero (hlength.trans hdest)
    exact hmem

/-- Settles O22: none of the three is a key command, and none has destination bytes. -/
theorem frameOfCommandsThatStoreNothing : Obligations.FrameOfCommandsThatStoreNothing := by
  intro i s t hi h
  obtain ⟨hcrunch, hrehash, hdest⟩ : i ≠ .keycrunch ∧ i ≠ .rehash ∧ destBytes i = 0 := by
    obtain rfl | rfl | rfl := hi <;> decide
  obtain ⟨hsrcAddr, hsrcLen, hauxAddr, hauxLen, hdstAddr, hcfg, hhost, hreply, hfree⟩ := exec_frame i h
  have hkd := exec_kd_of_hostCommand hcrunch hrehash h
  have hmem : ∀ a, t.mem.read a = s.mem.read a := fun a => by rw [exec_mem_of_no_destination hdest h]
  exact ⟨hsrcAddr, hsrcLen, hauxAddr, hauxLen, hdstAddr, hcfg, hkd, hhost, hreply, hfree, exec_sticky h, hmem⟩

/-- Settles O23: FINAL is no key command, and its destination bytes are the digest span. -/
theorem frameOfFinal : Obligations.FrameOfFinal := by
  intro s t h
  obtain ⟨hsrcAddr, hsrcLen, hauxAddr, hauxLen, hdstAddr, hcfg, hhost, hreply, hfree⟩ := exec_frame .final h
  have hkd := exec_kd_of_hostCommand (by decide) (by decide) h
  exact ⟨hsrcAddr, hsrcLen, hauxAddr, hauxLen, hdstAddr, hcfg, hkd, hhost, hreply, hfree, exec_sticky h,
    exec_mem_outside .final h⟩

end Sys2Proof.Machine

namespace Sys2Proof.Machine

open Sys2Proof

/-! ### The command word (30_encoding.md R80 to R86) -/

theorem encoding_statement (i : Instr) : Laws.Encoding.Statement i := by
  cases i
  case init => exact Laws.Encoding.init
  case update => exact Laws.Encoding.update
  case final => exact Laws.Encoding.final
  case wipe => exact Laws.Encoding.wipe
  case keycrunch => exact Laws.Encoding.keycrunch
  case rehash => exact Laws.Encoding.rehash

@[simp] theorem zeroField_encode (i : Instr) : zeroField (encode i) = 0 := by
  obtain ⟨-, hzero, -⟩ := encoding_statement i
  exact hzero

theorem opcodeField_encode_bounds (i : Instr) :
    0x01#8 ≤ opcodeField (encode i) ∧ opcodeField (encode i) ≤ 0x06#8 := by
  obtain ⟨-, -, hlow, hhigh, -⟩ := encoding_statement i
  exact ⟨hlow, hhigh⟩

@[simp] theorem decode_encode (i : Instr) : decode (encode i) = .ok i := by
  cases i <;> rfl

theorem decode_eq_ok_iff {w : Word} {i : Instr} : decode w = .ok i ↔ w = encode i :=
  ⟨word_of_decode, fun hword => hword ▸ decode_encode i⟩

/-- Settles O2: every command word decodes to its command, and the decoder's check of the upper 24 bits leaves a
decoded word no bit that its opcode does not fix. -/
theorem decodeInvertsEncode : Obligations.DecodeInvertsEncode :=
  ⟨decode_encode, fun _ _ => word_of_decode⟩

/-- A row of the map is the word of its command, under the full mask. -/
theorem mem_opcodeMap_iff {row : Word × Word × Instr} :
    row ∈ opcodeMap ↔ row = (encode row.2.2, 0xFFFFFFFF#32, row.2.2) := by
  constructor
  · intro hmem
    simp only [opcodeMap, List.mem_cons, List.not_mem_nil, or_false] at hmem
    obtain rfl | rfl | rfl | rfl | rfl | rfl := hmem <;> rfl
  · intro hrow
    obtain ⟨-, -, -, -, hmem⟩ := encoding_statement row.2.2
    rwa [← hrow] at hmem

/-- Settles O1: under the full mask of every row, a match is equality with the word of the row's command. -/
theorem decodeFollowsOpcodeMap : Obligations.DecodeFollowsOpcodeMap := by
  intro w i
  rw [decode_eq_ok_iff]
  constructor
  · rintro rfl
    exact ⟨(encode i, 0xFFFFFFFF#32, i), mem_opcodeMap_iff.mpr rfl, BitVec.and_allOnes, rfl⟩
  · rintro ⟨⟨word, mask, _⟩, hmem, hmatch, rfl⟩
    obtain ⟨rfl, rfl⟩ : word = encode _ ∧ mask = 0xFFFFFFFF#32 := by simpa using mem_opcodeMap_iff.mp hmem
    calc w = w &&& 0xFFFFFFFF#32 := BitVec.and_allOnes.symm
      _ = encode _ := hmatch

/-- R84: a word outside format C or with an unassigned opcode has a reason to be illegal, because the word of a
command has neither fault. -/
theorem exists_decode_error {w : Word} (h : zeroField w ≠ 0 ∨ opcodeField w = 0 ∨ 0x07#8 ≤ opcodeField w) :
    ∃ e, decode w = .error e := by
  cases hdecode : decode w with
  | error e => exact ⟨e, rfl⟩
  | ok i =>
    obtain rfl : w = encode i := word_of_decode hdecode
    obtain ⟨hlow, hhigh⟩ := opcodeField_encode_bounds i
    obtain hupper | hopcode | hopcode := h
    · exact absurd (zeroField_encode i) hupper
    · rw [hopcode] at hlow
      exact absurd hlow (by decide)
    · exact absurd (BitVec.le_trans hopcode hhigh) (by decide)

/-- Settles O4: such a word is an error of the decoder, and a launch answers it by the refusal alone. -/
theorem illegalWordsAreRefused : Obligations.IllegalWordsAreRefused := by
  intro s w rest hhost hillegal
  obtain ⟨e, hdecode⟩ := exists_decode_error hillegal
  rw [step_of_host_cons hhost, perform_command, launch_of_illegal hdecode]
  rfl

/-- Settles O3: the four legal words are the words of their commands, and the decoder names the reason for each of the
other two. -/
theorem printedWordsDecode : Obligations.PrintedWordsDecode :=
  ⟨decode_encode .init, decode_encode .final, decode_encode .keycrunch, decode_encode .rehash, by decide, by decide⟩

end Sys2Proof.Machine

namespace Sys2Proof.Machine

open Sys2Proof

/-! ### NORMALIZE on a buffer of any length (40_byte_order.md R100 to R105) -/

/-- The swap of R102 is its own inverse: each word is reversed twice, and the bytes past the words are never moved. -/
theorem swapWords_swapWords (n : Nat) (buf : List Byte) : swapWords n (swapWords n buf) = buf := by
  induction n, buf using swapWords.induct with
  | case1 n b0 b1 b2 b3 rest ih => simp only [swapWords, ih]
  | case2 n buf hshort =>
    have hkept : swapWords n buf = buf := by rw [swapWords]; exact hshort
    rw [hkept, hkept]

@[simp] theorem normalizeWords_normalizeWords (be : Bool) (n : Nat) (buf : List Byte) :
    normalizeWords be n (normalizeWords be n buf) = buf := by
  cases be
  case false => rfl
  case true => exact swapWords_swapWords n buf

/-- Settles O29: without BE nothing is moved, and with BE every word is reversed twice. -/
theorem normalizeIsAnInvolution : Obligations.NormalizeIsAnInvolution := normalizeWords_normalizeWords

/-- With BE the swap and the big-endian load each reverse the four bytes. The load at `BE = 0` is the little-endian
reading. -/
theorem nativeLoad32_normalizeWords (be : Bool) {n i : Nat} {buf : List Byte} (hlen : 4 * n ≤ buf.length)
    (hi : i < n) :
    nativeLoad32 be (normalizeWords be n buf) (4 * i) = nativeLoad32 false buf (4 * i) := by
  cases be
  case false => rfl
  case true =>
    have hbyte := fun j hj => swapWords_getD n buf i j hlen hi hj
    have h0 : (swapWords n buf).getD (4 * i) 0 = buf.getD (4 * i + 3) 0 := hbyte 0 (by decide)
    have h1 := hbyte 1 (by decide)
    have h2 := hbyte 2 (by decide)
    have h3 := hbyte 3 (by decide)
    calc nativeLoad32 true (swapWords n buf) (4 * i)
        = be32 (buf.getD (4 * i + 3) 0) (buf.getD (4 * i + 2) 0) (buf.getD (4 * i + 1) 0) (buf.getD (4 * i) 0) := by
          rw [nativeLoad32, if_pos rfl, h0, h1, h2, h3]; rfl
      _ = nativeLoad32 false buf (4 * i) := be32_eq_le32 _ _ _ _

/-- The four bytes at an offset are `le_bytes32` of their little-endian reading (00_scope.md R9). -/
theorem take_drop_eq_leBytes32 {buf : List Byte} {off : Nat} (h : off + 4 ≤ buf.length) :
    (buf.drop off).take 4 = leBytes32 (nativeLoad32 false buf off) := by
  have hcons : ∀ x < buf.length, buf.drop x = buf.getD x 0 :: buf.drop (x + 1) := fun x hx => by
    rw [List.getD_eq_getElem _ _ hx, List.drop_eq_getElem_cons hx]
  rw [nativeLoad32, if_neg Bool.false_ne_true, leBytes32_le32, hcons off (by omega), hcons (off + 1) (by omega),
    hcons (off + 2) (by omega), hcons (off + 3) (by omega)]
  rfl

/-- R105, second half. The buffer before NORMALIZE is the normalized one normalized again, so its native word is the
little-endian reading of the normalized bytes. -/
theorem take_drop_normalizeWords (be : Bool) {n i : Nat} {buf : List Byte} (hlen : 4 * n ≤ buf.length) (hi : i < n) :
    ((normalizeWords be n buf).drop (4 * i)).take 4 = leBytes32 (nativeLoad32 be buf (4 * i)) := by
  have hlen' : 4 * n ≤ (normalizeWords be n buf).length := (normalizeWords_length be n buf).symm ▸ hlen
  have hword := nativeLoad32_normalizeWords be hlen' hi
  rw [normalizeWords_normalizeWords] at hword
  rw [hword]
  exact take_drop_eq_leBytes32 (by omega)

theorem nativeStore32_length (be : Bool) (off : Nat) (v : Word) (buf : List Byte) :
    (nativeStore32 be off v buf).length = buf.length := overwrite_length off _ buf

/-- Settles O30: the little-endian reading of the original bytes, and, after a store, the little-endian bytes of the
native word, which is the one stored. -/
theorem normalizedWordsAreLittleEndian : Obligations.NormalizedWordsAreLittleEndian := by
  intro be n buf i hlen hi
  refine ⟨nativeLoad32_normalizeWords be hlen hi, fun v => ?_⟩
  rw [take_drop_normalizeWords be ((nativeStore32_length be _ v buf).symm ▸ hlen) hi,
    nativeLoad32_store_same be (4 * i) v buf (by omega)]

/-! ### The trailer (40_byte_order.md R106) -/

theorem take_nativeStore32 (be : Bool) (v : Word) {k off : Nat} {buf : List Byte} (hk : k ≤ off)
    (h : off ≤ buf.length) : (nativeStore32 be off v buf).take k = buf.take k := by
  have hprefix : k ≤ (buf.take off).length := by rwa [List.length_take_of_le h]
  rw [nativeStore32, overwrite, List.append_assoc, List.take_append_of_le_length hprefix, List.take_take,
    Nat.min_eq_left hk]

/-- Settles O31: each load meets its own store, the store at 60 leaves the word at 56, and both stores leave the bytes
below 56. -/
theorem trailerWordsArriveAsNumbers : Obligations.TrailerWordsArriveAsNumbers := by
  intro be b lo hi
  have hb := b.size
  have hb' := (b.store32 be 56 lo).size
  refine ⟨?_, nativeLoad32_store_same be 60 hi _ (by omega), ?_⟩
  · exact (nativeLoad32_store_below be 60 hi _ 56 (by decide) (by omega)).trans
      (nativeLoad32_store_same be 56 lo _ (by omega))
  · exact (take_nativeStore32 be hi (by decide) (by omega)).trans (take_nativeStore32 be lo (by decide) (by omega))

end Sys2Proof.Machine

namespace Sys2Proof.Machine

open Sys2Proof

/-! ### The rotating form of COMPRESS (41_compress.md R114 to R123) -/

/-- The lane that a round targets after `l`: the cycle a, d, c, b of R118. -/
def Lane.next : Lane → Lane
  | .a => .d
  | .d => .c
  | .c => .b
  | .b => .a

/-- The four lanes from `l` on, in the cyclic order a, b, c, d: the tuple of R123 at a round that targets `l`. -/
def Lanes.tupleFrom (v : Lanes) : Lane → Word × Word × Word × Word
  | .a => (v.a, v.b, v.c, v.d)
  | .b => (v.b, v.c, v.d, v.a)
  | .c => (v.c, v.d, v.a, v.b)
  | .d => (v.d, v.a, v.b, v.c)

@[simp] theorem targetOf_succ (r : Nat) : targetOf (r + 1) = (targetOf r).next := by
  obtain h | h | h | h : r % 4 = 0 ∨ r % 4 = 1 ∨ r % 4 = 2 ∨ r % 4 = 3 := by omega
  all_goals simp [targetOf, Nat.add_mod, h, Lane.next]

@[simp] theorem roundRow_target (r : Nat) : (roundRow r).target = targetOf r := by
  unfold roundRow
  split <;> rfl

/-- One round on the lanes is one round on the tuple, which then stands at the next target. -/
theorem rotatingRound_tupleFrom (X : List Word) (v : Lanes) (row : RoundRow) :
    rotatingRound X (v.tupleFrom row.target) row = (applyRow X v row).tupleFrom row.target.next := by
  obtain ⟨mix, target, word, rot, const⟩ := row
  cases target <;> rfl

/-- After the first `n` rounds the tuple is the lanes read from the target of round `n` on. -/
theorem foldl_rotatingRound (X : List Word) (S : Lanes) (n : Nat) :
    ((List.range n).map roundRow).foldl (rotatingRound X) (S.tupleFrom .a) =
      (((List.range n).map roundRow).foldl (applyRow X) S).tupleFrom (targetOf n) := by
  induction n with
  | zero => rfl
  | succ n ih =>
    have hround := rotatingRound_tupleFrom X (((List.range n).map roundRow).foldl (applyRow X) S) (roundRow n)
    rw [roundRow_target] at hround
    simp only [List.range_succ, List.map_append, List.map_singleton, List.foldl_append, List.foldl_cons,
      List.foldl_nil, ih, hround, targetOf_succ]

/-- Settles O32: 48 rounds are twelve turns of the cycle, so the tuple ends at lane a again. -/
theorem compressIsTheRotatingForm : Obligations.CompressIsTheRotatingForm := by
  intro S X
  have hfold : schedule.foldl (rotatingRound X) (S.a, S.b, S.c, S.d) =
      (schedule.foldl (applyRow X) S).tupleFrom .a := foldl_rotatingRound X S 48
  rw [compress, hfold]
  generalize schedule.foldl (applyRow X) S = v
  rfl

/-! ### Rotation and the mixing functions, bit by bit (00_scope.md R8; 41_compress.md R111 to R113) -/

theorem rotl32_eq_rotateLeft (x : Word) {s : Nat} (h : s < 32) : rotl32 x s = x.rotateLeft s := by
  rw [BitVec.rotateLeft, Nat.mod_eq_of_lt h]
  rfl

/-- Settles O34: a bit below `32 - s` moves up by `s`, and the top `s` bits come back at the bottom. -/
theorem rotationMovesEveryBit : Obligations.RotationMovesEveryBit := by
  intro x s j _ hs hj
  rw [rotl32_eq_rotateLeft x (by omega), BitVec.getLsbD_rotateLeft, Nat.mod_eq_of_lt (by omega : s < 32)]
  by_cases hwrap : j + s < 32
  · rw [Nat.mod_eq_of_lt hwrap]
    simp [hwrap]
  · have hbit : (j + s) % 32 = j + s - 32 := by omega
    have hlow : j + s - 32 < s := by omega
    have hback : 32 - s + (j + s - 32) = j := by omega
    rw [hbit, decide_eq_true hlow, cond_true, hback]

theorem mixF_getLsbD (x y z : Word) {j : Nat} (hj : j < 32) :
    (mixF x y z).getLsbD j = if x.getLsbD j then y.getLsbD j else z.getLsbD j := by
  simp only [mixF, BitVec.getLsbD_or, BitVec.getLsbD_and, BitVec.getLsbD_not]
  cases x.getLsbD j <;> simp [hj]

theorem mixG_getLsbD (x y z : Word) (j : Nat) : (mixG x y z).getLsbD j =
    ((x.getLsbD j && y.getLsbD j) || (x.getLsbD j && z.getLsbD j) || (y.getLsbD j && z.getLsbD j)) := by
  simp only [mixG, BitVec.getLsbD_or, BitVec.getLsbD_and]

theorem mixH_getLsbD (x y z : Word) (j : Nat) :
    (mixH x y z).getLsbD j = ((x.getLsbD j ^^ y.getLsbD j) ^^ z.getLsbD j) := by
  simp only [mixH, BitVec.getLsbD_xor]

/-- R111: where `x` has a 1 the two `z` cancel and leave `y`, where it has a 0 only `z` is left. -/
theorem mixF_eq_xor (x y z : Word) : mixF x y z = z ^^^ (x &&& (y ^^^ z)) := by
  refine BitVec.eq_of_getLsbD_eq fun j hj => ?_
  rw [mixF_getLsbD x y z hj, BitVec.getLsbD_xor, BitVec.getLsbD_and, BitVec.getLsbD_xor]
  cases x.getLsbD j
  case false => simp
  case true => cases y.getLsbD j <;> simp

/-- R112: two of three are `x` and `y`, or `z` with one of them. -/
theorem mixG_eq_or (x y z : Word) : mixG x y z = (x &&& y) ||| (z &&& (x ||| y)) := by
  refine BitVec.eq_of_getLsbD_eq fun j _ => ?_
  rw [mixG_getLsbD, BitVec.getLsbD_or, BitVec.getLsbD_and, BitVec.getLsbD_and, BitVec.getLsbD_or]
  cases z.getLsbD j <;> simp [Bool.or_assoc]

/-- Settles O33: each function is bitwise, so its equal form is checked at one bit. -/
theorem mixingFunctionsBitByBit : Obligations.MixingFunctionsBitByBit := fun x y z =>
  ⟨fun j hj => ⟨mixF_getLsbD x y z hj, mixG_getLsbD x y z j, mixH_getLsbD x y z j⟩, mixF_eq_xor x y z, mixG_eq_or x y z⟩

/-! ### The word orders (41_compress.md R115 to R119) -/

theorem pass1_words : ((schedule.drop 0).take 16).map RoundRow.word = List.range 16 := rfl

theorem pass2_words : ((schedule.drop 16).take 16).map RoundRow.word = wordOrder2 := rfl

theorem pass3_words : ((schedule.drop 32).take 16).map RoundRow.word = wordOrder3 := rfl

/-- Settles O35: pass 1 takes the words in order, and the two listed orders are rearrangements of 0 to 15. -/
theorem wordOrdersInClosedForm : Obligations.WordOrdersInClosedForm := by
  refine ⟨by decide, by decide, fun p hp => ?_⟩
  obtain rfl | rfl | rfl : p = 0 ∨ p = 1 ∨ p = 2 := by omega
  · exact .of_eq pass1_words
  · have hperm : wordOrder2.Perm (List.range 16) := by decide
    exact pass2_words ▸ hperm
  · have hperm : wordOrder3.Perm (List.range 16) := by decide
    exact pass3_words ▸ hperm

end Sys2Proof.Machine

namespace Sys2Proof.Machine

open Sys2Proof

/-! ### The bit counter (42_stream.md R142, R143) -/

/-- The low half of ADVANCE's addend: `len << 3` drops what `8 len` has from bit 32 on. -/
theorem ofNat_eight_mul_toNat (len : Word) : BitVec.ofNat 32 (8 * len.toNat) = len <<< 3 := by
  apply BitVec.eq_of_toNat_eq
  rw [BitVec.toNat_ofNat, BitVec.toNat_shiftLeft, Nat.shiftLeft_eq, Nat.mul_comm]

theorem ofNat_toNat_div (len : Word) : BitVec.ofNat 32 (len.toNat / 2 ^ 29) = len >>> 29 := by
  apply BitVec.eq_of_toNat_eq
  rw [BitVec.toNat_ofNat, BitVec.toNat_ushiftRight, Nat.shiftRight_eq_div_pow]
  have hlen := len.isLt
  omega

/-- The high half with a carry out of the low half. -/
theorem advance_bitsHi_of_carry {c : Context} {len : Nat}
    (h : 2 ^ 32 ≤ c.bitsLo.toNat + (BitVec.ofNat 32 (8 * len)).toNat) :
    (c.advance len).bitsHi = c.bitsHi + 1#32 + BitVec.ofNat 32 (len / 2 ^ 29) := by
  simp only [Context.advance, ge_iff_le, if_pos h]
  rfl

/-- The high half without a carry. -/
theorem advance_bitsHi_of_no_carry {c : Context} {len : Nat}
    (h : ¬ 2 ^ 32 ≤ c.bitsLo.toNat + (BitVec.ofNat 32 (8 * len)).toNat) :
    (c.advance len).bitsHi = c.bitsHi + BitVec.ofNat 32 (len / 2 ^ 29) := by
  have hzero : c.bitsHi + 0 = c.bitsHi := BitVec.add_zero _
  simp only [Context.advance, ge_iff_le, if_neg h, hzero]

@[simp] theorem advance_bitsLo (c : Context) (len : Nat) :
    (c.advance len).bitsLo = c.bitsLo + BitVec.ofNat 32 (8 * len) := rfl

/-- A sum modulo `2^32` is smaller than a summand exactly where it wrapped. -/
theorem add_lt_left_iff_carry (x y : Word) : x + y < x ↔ 2 ^ 32 ≤ x.toNat + y.toNat := by
  rw [BitVec.lt_def, BitVec.toNat_add]
  have hx := x.isLt
  have hy := y.isLt
  omega

/-- Settles O36: the addend of a 32-bit length is the two shifts, and each carry clause is one branch of ADVANCE. -/
theorem advanceCarriesIntoTheHighHalf : Obligations.AdvanceCarriesIntoTheHighHalf := by
  intro c len lo carries
  have hlo : BitVec.ofNat 32 (8 * len.toNat) = lo := ofNat_eight_mul_toNat len
  have hbits : (c.advance len.toNat).bitsLo = c.bitsLo + lo := by rw [advance_bitsLo, hlo]
  refine ⟨hbits, fun hcarry => ?_, fun hcarry => ?_, ?_, rfl, rfl⟩
  · rw [advance_bitsHi_of_carry (hlo.symm ▸ hcarry), ofNat_toNat_div]
  · rw [advance_bitsHi_of_no_carry (hlo.symm ▸ hcarry), ofNat_toNat_div]
  · rw [hbits]
    exact (add_lt_left_iff_carry c.bitsLo lo).symm

/-- The carry and `len >> 29` are what `bits[0] + 8 len` has from bit 32 on. -/
theorem bits_advance (c : Context) (len : Nat) : (c.advance len).bits = (c.bits + 8 * len) % 2 ^ 64 := by
  have hlo := c.bitsLo.isLt
  have hhi := c.bitsHi.isLt
  by_cases hcarry : 2 ^ 32 ≤ c.bitsLo.toNat + (BitVec.ofNat 32 (8 * len)).toNat
  · simp only [Context.bits, advance_bitsLo, advance_bitsHi_of_carry hcarry, BitVec.toNat_add]
    simp only [BitVec.toNat_ofNat] at hcarry ⊢
    omega
  · simp only [Context.bits, advance_bitsLo, advance_bitsHi_of_no_carry hcarry, BitVec.toNat_add]
    simp only [BitVec.toNat_ofNat] at hcarry ⊢
    omega

/-- Settles O37: the two halves are the digits of one sum to the base `2^32`. -/
theorem advanceIsAdditionModulo64Bits : Obligations.AdvanceIsAdditionModulo64Bits := bits_advance

/-- The halves of a counter that stands at `n` modulo `2^64`: the two words that R153's padding writes for `n`. -/
theorem halves_of_bits_eq {c : Context} {n : Nat} (h : c.bits = n % 2 ^ 64) :
    c.bitsLo = BitVec.ofNat 32 n ∧ c.bitsHi = BitVec.ofNat 32 (n / 2 ^ 32) := by
  have hlo := c.bitsLo.isLt
  have hhi := c.bitsHi.isLt
  unfold Context.bits at h
  constructor <;> apply BitVec.eq_of_toNat_eq <;> rw [BitVec.toNat_ofNat] <;> omega

/-- The pending count is read from the low half alone. -/
theorem pending_congr {c c' : Context} (h : c.bitsLo = c'.bitsLo) : c.pending = c'.pending := by
  rw [pending_eq, pending_eq, h]

theorem bits_congr {c c' : Context} (hlo : c.bitsLo = c'.bitsLo) (hhi : c.bitsHi = c'.bitsHi) : c.bits = c'.bits := by
  rw [Context.bits, Context.bits, hlo, hhi]

/-! ### UPDATE on a context (42_stream.md R144, R145) -/

theorem foldBlocks_succ_append (k : Nat) (S : Lanes) {block : List Byte} (rest : List Byte) (h : block.length = 64) :
    foldBlocks (k + 1) S (block ++ rest) = foldBlocks k (compress S (leWords block)) rest := by
  rw [foldBlocks, List.take_left' h, List.drop_left' h]

/-- A first full block, compressed, in front of the blocks after it. -/
theorem BlocksSpec.of_absorb {be : Bool} {c r : Context} {rest : List Byte} (h : BlocksSpec (c.absorb be) r rest) :
    BlocksSpec c r (c.buf.bytes ++ rest) := by
  have hsize := c.buf.size
  have hlength : (c.buf.bytes ++ rest).length = 64 + rest.length := by rw [List.length_append, hsize]
  have hcount : (64 + rest.length) / 64 = rest.length / 64 + 1 := by omega
  obtain ⟨hh, htail, hlo, hhi⟩ := h
  constructor
  · rw [hh, absorb_h, hlength, hcount, foldBlocks_succ_append _ _ _ hsize]
  · rw [hlength, hcount, Nat.add_mod_left, htail, Nat.mul_add, Nat.add_comm, ← List.drop_drop, Nat.mul_one,
      List.drop_left' hsize]
  · rw [hlo, absorb_bitsLo]
  · rw [hhi, absorb_bitsHi]

/-- The buffer from its start to the end of the slice that was put into it. -/
theorem take_put (c : Context) {off k : Nat} (data : List Byte) (hk : off + data.length = k) (h : k ≤ 64) :
    (c.put off data).buf.bytes.take k = c.buf.bytes.take off ++ data := by
  have hsize := c.buf.size
  rw [put_bytes c off data (by omega), List.take_left' (by simp; omega)]

/-- A slice that ends with the buffer. -/
theorem put_to_end_bytes (c : Context) {off : Nat} (data : List Byte) (h : off + data.length = 64) :
    (c.put off data).buf.bytes = c.buf.bytes.take off ++ data := by
  rw [← take_put c data h (Nat.le_refl _), List.take_of_length_le (Nat.le_of_eq (Buffer.size _))]

/-- R145: the short fill. -/
theorem update_of_short {c : Context} {data : List Byte} (be : Bool) (hn : c.pending ≠ 0)
    (hshort : data.length < 64 - c.pending) : c.update be data = (c.advance data.length).put c.pending data := by
  simp only [Context.update, if_pos hn, if_pos hshort]

/-- R144 with an empty buffer: the block loop at once. -/
theorem update_of_no_pending {c : Context} (be : Bool) (data : List Byte) (hn : c.pending = 0) :
    c.update be data = Context.blocks be (data.length / 64) data (c.advance data.length) := by
  simp only [Context.update, hn, ne_eq, not_true, if_false]

/-- R144: the buffer is filled up and compressed, then the block loop. -/
theorem update_of_fill {c : Context} {data : List Byte} (be : Bool) (hn : c.pending ≠ 0)
    (hfill : ¬ data.length < 64 - c.pending) :
    c.update be data = Context.blocks be (data.length / 64) (data.drop (64 - c.pending))
      (((c.advance data.length).put c.pending (data.take (64 - c.pending))).absorb be) := by
  simp only [Context.update, if_pos hn, if_neg hfill]

/-- UPDATE folds the waiting bytes followed by the new ones, on all three paths, and of the counter only ADVANCE is
seen. -/
theorem update_spec (be : Bool) (data : List Byte) (c : Context) :
    BlocksSpec (c.advance data.length) (c.update be data) (c.pendingBytes ++ data) := by
  have hpending := pendingBytes_length c
  by_cases hn : c.pending = 0
  · have hempty : c.pendingBytes = [] := List.eq_nil_of_length_eq_zero (hpending.trans hn)
    rw [update_of_no_pending be data hn, hempty, List.nil_append]
    exact blocks_spec be _ _ _ (Nat.le_refl _)
  by_cases hshort : data.length < 64 - c.pending
  · have hlength : (c.pendingBytes ++ data).length = c.pending + data.length := by rw [List.length_append, hpending]
    have hcount : (c.pending + data.length) / 64 = 0 := by omega
    rw [update_of_short be hn hshort]
    constructor
    · rw [hlength, hcount]; rfl
    · rw [hlength, hcount, Nat.mod_eq_of_lt (by omega)]
      exact take_put _ data rfl (by omega)
    · rfl
    · rfl
  · have hblock : ((c.advance data.length).put c.pending (data.take (64 - c.pending))).buf.bytes =
        c.pendingBytes ++ data.take (64 - c.pending) := by
      have hlt := pending_lt c
      exact put_to_end_bytes (c.advance data.length) _ (by rw [List.length_take]; omega)
    have hspec := (blocks_spec be (data.length / 64) (data.drop (64 - c.pending))
      (((c.advance data.length).put c.pending (data.take (64 - c.pending))).absorb be)
      (by rw [List.length_drop]; omega)).of_absorb
    rw [hblock, List.append_assoc, List.take_append_drop, ← update_of_fill be hn hshort] at hspec
    exact ⟨hspec.h, hspec.tail, hspec.bitsLo, hspec.bitsHi⟩

theorem update_pending (be : Bool) (data : List Byte) (c : Context) :
    (c.update be data).pending = (c.pending + data.length) % 64 := by
  rw [pending_congr (update_bitsLo be data c), pending_advance]

theorem update_bits (be : Bool) (data : List Byte) (c : Context) :
    (c.update be data).bits = (c.bits + 8 * data.length) % 2 ^ 64 := by
  have hspec := update_spec be data c
  rw [bits_congr hspec.bitsLo hspec.bitsHi, bits_advance]

theorem update_h (be : Bool) (data : List Byte) (c : Context) :
    (c.update be data).h = foldBlocks ((c.pending + data.length) / 64) c.h (c.pendingBytes ++ data) := by
  rw [(update_spec be data c).h, List.length_append, pendingBytes_length, advance_h]

theorem update_pendingBytes (be : Bool) (data : List Byte) (c : Context) :
    (c.update be data).pendingBytes =
      (c.pendingBytes ++ data).drop (64 * ((c.pending + data.length) / 64)) := by
  have htail := (update_spec be data c).tail
  rwa [List.length_append, pendingBytes_length, ← update_pending be data c] at htail

/-! ### The message a context holds (42_stream.md R155) -/

theorem pending_of_holds {c : Context} {m : List Byte} (h : c.Holds m) : c.pending = m.length % 64 := by
  obtain ⟨hlo, -⟩ := halves_of_bits_eq h.bits_eq
  rw [pending_eq, hlo, BitVec.toNat_ofNat]
  omega

/-- The complete blocks of `m` are blocks of `m` continued; after them come the waiting bytes. -/
theorem foldBlocks_of_holds {c : Context} {m : List Byte} (h : c.Holds m) (k : Nat) (x : List Byte) :
    foldBlocks (m.length / 64 + k) initialState (m ++ x) = foldBlocks k c.h (c.pendingBytes ++ x) := by
  have hblocks : 64 * (m.length / 64) ≤ m.length := Nat.mul_div_le _ _
  rw [foldBlocks_add, foldBlocks_append _ _ _ _ hblocks, List.drop_append_of_le_length hblocks, ← h.h_eq,
    ← h.pending_eq]

@[simp] theorem start_pending (c : Context) : c.start.pending = 0 := by
  simp [pending_eq, Context.start]

/-- R155 after INIT: no byte has been passed, and none waits. -/
theorem holds_start (c : Context) : c.start.Holds [] where
  bits_eq := rfl
  pending_eq := by simp [Context.pendingBytes]
  h_eq := rfl

/-- R155: a block boundary of `m` is one of `m` continued, so the blocks that UPDATE folds follow those of `m`. -/
theorem holds_update {c : Context} {m : List Byte} (be : Bool) (data : List Byte) (h : c.Holds m) :
    (c.update be data).Holds (m ++ data) := by
  have hpending := pending_of_holds h
  have hcount : (m ++ data).length / 64 = m.length / 64 + (c.pending + data.length) / 64 := by
    rw [List.length_append]
    omega
  constructor
  · rw [update_bits, h.bits_eq, List.length_append]
    omega
  · rw [update_pendingBytes, hcount, Nat.mul_add, ← List.drop_drop,
      List.drop_append_of_le_length (Nat.mul_div_le _ _), ← h.pending_eq]
  · rw [update_h, hcount, foldBlocks_of_holds h]

/-! ### FINAL on a context (42_stream.md R148 to R150) -/

/-- The waiting bytes, `0x80` and zeros behind them. -/
def Context.padded (c : Context) (zeros : Nat) : List Byte :=
  c.pendingBytes ++ [0x80#8] ++ List.replicate zeros 0#8

/-- A context with `0x80` and zeros put behind its waiting bytes. -/
def Context.putPadding (c : Context) (zeros : Nat) : Context :=
  (c.put c.pending [0x80#8]).put (c.pending + 1) (List.replicate zeros 0#8)

@[simp] theorem padded_length (c : Context) (zeros : Nat) : (c.padded zeros).length = c.pending + 1 + zeros := by
  simp only [Context.padded, List.length_append, pendingBytes_length, List.length_singleton, List.length_replicate]

theorem take_padded (c : Context) {k zeros : Nat} (more : Nat) (hk : c.pending + 1 + zeros = k) :
    (c.padded (zeros + more)).take k = c.padded zeros := by
  rw [Context.padded, List.replicate_add, ← List.append_assoc, ← Context.padded,
    List.take_left' ((padded_length c zeros).trans hk)]

/-- The buffer up to the last zero that was put into it. -/
theorem take_putPadding (c : Context) {k zeros : Nat} (hk : c.pending + 1 + zeros = k) (h : k ≤ 64) :
    (c.putPadding zeros).buf.bytes.take k = c.padded zeros := by
  rw [Context.putPadding, take_put _ _ (by rw [List.length_replicate]; exact hk) h,
    take_put (k := c.pending + 1) c [0x80#8] rfl (by omega)]
  rfl

/-- PAD where the counter still fits behind the padding. -/
theorem pad_of_room {c : Context} (be : Bool) (h : c.pending < 56) : c.pad be = c.putPadding (55 - c.pending) := by
  have hroom : ¬ 63 - c.pending < 8 := by omega
  have hzeros : 63 - c.pending - 8 = 55 - c.pending := by omega
  simp only [Context.pad, if_neg hroom, hzeros]
  rfl

/-- PAD where the counter needs one more block. -/
theorem pad_of_no_room {c : Context} (be : Bool) (h : ¬ c.pending < 56) :
    c.pad be = ((c.putPadding (63 - c.pending)).absorb be).put 0 (List.replicate 56 0#8) := by
  have hroom : 63 - c.pending < 8 := by omega
  simp only [Context.pad, if_pos hroom]
  rfl

theorem finalState_of_room {c : Context} (h : c.pending < 56) :
    c.finalState = compress c.h ((leWords (c.padded (63 - c.pending))).take 14 ++ [c.bitsLo, c.bitsHi]) := by
  simp only [Context.finalState, if_pos h]
  rfl

theorem finalState_of_no_room {c : Context} (h : ¬ c.pending < 56) :
    c.finalState = compress (compress c.h (leWords (c.padded (63 - c.pending))))
      (List.replicate 14 0#32 ++ [c.bitsLo, c.bitsHi]) := by
  simp only [Context.finalState, if_neg h]
  rfl

/-- The padded block up to the counter's place. -/
theorem take_padded_block {c : Context} (h : c.pending < 56) :
    (c.padded (63 - c.pending)).take 56 = c.padded (55 - c.pending) := by
  have hzeros : 63 - c.pending = 55 - c.pending + 8 := by omega
  rw [hzeros, take_padded c 8 (by omega)]

theorem leWords_zeros_take14 : (leWords (List.replicate 56 0#8)).take 14 = List.replicate 14 0#32 := by decide

/-- PAD and TRAILER leave the state words of `finalState`, whatever `BE` and the stale tail. -/
theorem trailer_pad_h (be : Bool) (c : Context) : ((c.pad be).trailer be).h = c.finalState := by
  rw [trailer_h]
  by_cases hroom : c.pending < 56
  · have hblock := take_putPadding c (k := 56) (zeros := 55 - c.pending) (by omega) (by decide)
    rw [pad_of_room be hroom, finalState_of_room hroom,
      leWords_take14 _ _ (hblock.trans (take_padded_block hroom).symm)]
    rfl
  · have hlt := pending_lt c
    have hblock : (c.putPadding (63 - c.pending)).buf.bytes = c.padded (63 - c.pending) := by
      rw [← take_putPadding c (k := 64) (by omega) (by decide), List.take_of_length_le (Nat.le_of_eq (Buffer.size _))]
    have hzeros := take_put ((c.putPadding (63 - c.pending)).absorb be) (off := 0) (k := 56)
      (List.replicate 56 0#8) rfl (by decide)
    rw [pad_of_no_room be hroom, finalState_of_no_room hroom, leWords_take14 _ (List.replicate 56 0#8) hzeros,
      leWords_zeros_take14, put_h, put_bitsLo, put_bitsHi, absorb_h, absorb_bitsLo, absorb_bitsHi, hblock]
    rfl

theorem digest_eq (be : Bool) (c : Context) : c.digest be = stateBytes c.finalState := by
  rw [Context.digest, output_eq, trailer_pad_h]

/-! ### The digest of the message held (42_stream.md R153) -/

theorem nativeLoad32_append_right (be : Bool) (x y : List Byte) (off : Nat) :
    nativeLoad32 be (x ++ y) (x.length + off) = nativeLoad32 be y off := by
  have hbyte : ∀ j, (x ++ y).getD (x.length + j) 0 = y.getD j 0 := fun j => by
    rw [List.getD_append_right _ _ _ _ (Nat.le_add_right _ _), Nat.add_sub_cancel_left]
  simp only [nativeLoad32, Nat.add_assoc, hbyte]

/-- A block that ends in two words stored little-endian. -/
theorem leWords_of_trailer {x : List Byte} (lo hi : Word) (hx : x.length = 56) :
    leWords (x ++ (leBytes32 lo ++ leBytes32 hi)) = (leWords x).take 14 ++ [lo, hi] := by
  have hlow : (leWords (x ++ (leBytes32 lo ++ leBytes32 hi))).take 14 = (leWords x).take 14 := by
    apply leWords_take14
    rw [List.take_left' hx, List.take_of_length_le (Nat.le_of_eq hx)]
  have hword := nativeLoad32_append_right false x (leBytes32 lo ++ leBytes32 hi)
  rw [hx] at hword
  have hhigh : (leWords (x ++ (leBytes32 lo ++ leBytes32 hi))).drop 14 = [lo, hi] :=
    congrArg₂ (fun a b => [a, b]) ((hword 0).trans (le32_of_bytes lo)) ((hword 4).trans (le32_of_bytes hi))
  rw [← List.take_append_drop 14 (leWords _), hlow, hhigh]

/-- What R153 appends to a message that leaves `n` bytes in its last block: `0x80`, zeros up to the counter's place,
and the two halves of the counter. -/
def padding (n : Nat) (lo hi : Word) : List Byte :=
  [0x80#8] ++ List.replicate ((119 - n) % 64) 0#8 ++ (leBytes32 lo ++ leBytes32 hi)

theorem padMessage_eq (m : List Byte) :
    padMessage m = m ++ padding (m.length % 64) (BitVec.ofNat 32 (8 * m.length))
      (BitVec.ofNat 32 (8 * m.length / 2 ^ 32)) := by
  simp only [padMessage, padding, List.append_assoc]

theorem padMessage_blocks (m : List Byte) :
    (padMessage m).length / 64 = m.length / 64 + if m.length % 64 < 56 then 1 else 2 := by
  simp only [padMessage_eq, padding, List.length_append, List.length_replicate, leBytes32_length, List.length_singleton]
  split <;> omega

theorem pendingBytes_append_padding (c : Context) (lo hi : Word) :
    c.pendingBytes ++ padding c.pending lo hi =
      c.padded ((119 - c.pending) % 64) ++ (leBytes32 lo ++ leBytes32 hi) := by
  simp only [padding, Context.padded, List.append_assoc]

/-- FINAL's one or two compressions are R153's fold over the waiting bytes and their padding. -/
theorem finalState_eq_foldBlocks (c : Context) :
    c.finalState = foldBlocks (if c.pending < 56 then 1 else 2) c.h
      (c.pendingBytes ++ padding c.pending c.bitsLo c.bitsHi) := by
  have hlt := pending_lt c
  rw [pendingBytes_append_padding]
  by_cases hroom : c.pending < 56
  · have hzeros : (119 - c.pending) % 64 = 55 - c.pending := by omega
    have hlength : (c.padded (55 - c.pending)).length = 56 := by rw [padded_length]; omega
    have hblock : (c.padded (63 - c.pending)).take 56 = (c.padded (55 - c.pending)).take 56 := by
      rw [take_padded_block hroom, List.take_of_length_le (Nat.le_of_eq hlength)]
    rw [finalState_of_room hroom, if_pos hroom, hzeros, foldBlocks_one _ _ (by rw [List.length_append, hlength]; rfl),
      leWords_of_trailer _ _ hlength, leWords_take14 _ _ hblock]
  · have hzeros : (119 - c.pending) % 64 = 63 - c.pending + 56 := by omega
    have hlength : (c.padded (63 - c.pending)).length = 64 := by rw [padded_length]; omega
    have hsplit : c.padded (63 - c.pending + 56) = c.padded (63 - c.pending) ++ List.replicate 56 0#8 := by
      rw [Context.padded, List.replicate_add, ← List.append_assoc, ← Context.padded]
    rw [finalState_of_no_room hroom, if_neg hroom, hzeros, hsplit, List.append_assoc,
      foldBlocks_succ_append _ _ _ hlength, foldBlocks_one _ _ rfl, leWords_of_trailer _ _ List.length_replicate,
      leWords_zeros_take14]

/-- R153: FINAL's digest is the MD4 of the message held. -/
theorem digest_of_holds {c : Context} {m : List Byte} (be : Bool) (h : c.Holds m) : c.digest be = md4 m := by
  obtain ⟨hlo, hhi⟩ := halves_of_bits_eq h.bits_eq
  rw [digest_eq, md4, padMessage_blocks, padMessage_eq, foldBlocks_of_holds h, finalState_eq_foldBlocks,
    pending_of_holds h, hlo, hhi]

end Sys2Proof.Machine

namespace Sys2Proof.Machine

open Sys2Proof

/-! ### The checks of the streaming commands (42_stream.md R144, R147, R152) -/

theorem checks_of_updateReady {s : State} (h : s.UpdateReady) : firstError (checksOf .update s) = none := by
  have hlive := (live_iff s).mpr h.live
  have hrange : s.srcSpan.inRange = true := (inRange_iff _).mpr h.range
  have hvalid : s.srcSpan.valid s.cfg .read = true := (valid_iff _ _ _).mpr h.valid
  simp only [checksOf, firstError, hlive, hrange, hvalid, if_true]

theorem checks_of_finalReady {s : State} (h : s.FinalReady) : firstError (checksOf .final s) = none := by
  have hlive := (live_iff s).mpr h.live
  have hrange : s.digestSpan.inRange = true := (inRange_iff _).mpr (.inr h.range)
  have hvalid : s.digestSpan.valid s.cfg .write = true := (valid_iff _ _ _).mpr h.valid
  simp only [checksOf, firstError, hlive, hrange, hvalid, if_true]

theorem checks_of_wipe {s : State} (h : s.phase ≠ .finalized) : firstError (checksOf .wipe s) = none := by
  simp only [checksOf, firstError, (live_iff s).mpr h, if_true]

/-- The phase check is the first of the three commands that need a live context. -/
theorem checks_of_finalized {i : Instr} {s : State} (hi : i = .update ∨ i = .final ∨ i = .wipe)
    (h : s.phase = .finalized) : firstError (checksOf i s) = some .badPhase := by
  have hdead : s.live = false := by simp [State.live, h]
  obtain rfl | rfl | rfl := hi <;> simp [checksOf, firstError, hdead]

theorem exec_init (s : State) : exec .init s = .next (completedBy .init s) := exec_of_pass rfl

theorem exec_update {s : State} (h : s.UpdateReady) : exec .update s = .next (completedBy .update s) :=
  exec_of_pass (checks_of_updateReady h)

theorem exec_final {s : State} (h : s.FinalReady) : exec .final s = .next (completedBy .final s) :=
  exec_of_pass (checks_of_finalReady h)

@[simp] theorem message_length (s : State) : s.message.length = s.srcLen.toNat := readBytes_length _ _ _

/-! ### The lifecycle (42_stream.md R140) -/

/-- Settles O19: the PHASE of a completed command is its effect's, a refusal leaves PHASE, and the first failing check
gives the code. -/
theorem lifecycleTable : Obligations.LifecycleTable := by
  intro i s t h
  have houtcome := exec_cases i h
  refine ⟨fun herr => ?_, fun herr => ?_, ?_, fun hi hphase => ?_, ?_⟩
  · obtain ⟨-, rfl⟩ | ⟨code, -, -, -, rfl⟩ := houtcome
    · exact absurd (completedBy_err i s) herr
    · rfl
  · obtain ⟨-, rfl⟩ := exec_completed h herr
    cases i <;> rfl
  · rintro rfl
    rw [exec_init] at h
    injection h with ht
    exact ht ▸ completedBy_err .init s
  · rw [exec_of_fail (checks_of_finalized hi hphase)] at h
    injection h with ht
    exact ht ▸ refuse_err s .badPhase
  · rintro rfl hphase
    rw [exec_of_pass (checks_of_wipe hphase)] at h
    injection h with ht
    exact ht ▸ completedBy_err .wipe s

/-- From PHASE 0 only INIT leads to a live context: UPDATE is refused, and the other effects end in the PHASE before or
in PHASE 0. -/
theorem exec_starts_context {i : Instr} {s t : State} (h : exec i s = .next t) (hs : s.phase = .finalized)
    (ht : t.phase ≠ .finalized) : i = .init := by
  obtain ⟨hrefused, hcompleted, -, hbad, -⟩ := lifecycleTable i s t h
  by_cases herr : t.err = .ok
  · have hphase := hcompleted herr
    cases i
    case init => rfl
    case update => exact absurd ((hbad (.inl rfl) hs).symm.trans herr) ErrCode.noConfusion
    case final => exact absurd hphase ht
    case wipe => exact absurd hphase ht
    case keycrunch => exact absurd (hphase.trans hs) ht
    case rehash => exact absurd (hphase.trans hs) ht
  · exact absurd ((hrefused herr).trans hs) ht

theorem launch_starts_context {w : Word} {s t : State} (h : launch w s = .next t) (hs : s.phase = .finalized)
    (ht : t.phase ≠ .finalized) : w = encode .init := by
  obtain ⟨i, hdecode, hexec⟩ | ⟨-, rfl⟩ := launch_next h
  · obtain rfl := exec_starts_context hexec hs ht
    exact word_of_decode hdecode
  · exact absurd hs ht

theorem perform_starts_context {a : HostAccess} {s t : State} (h : perform a s = .next t) (hs : s.phase = .finalized)
    (ht : t.phase ≠ .finalized) : a = .regWrite 0 32 (encode .init) := by
  obtain ⟨w, rfl, hlaunch⟩ | ⟨n, v, -, -, -, rfl⟩ | ⟨n, -, -, rfl⟩ | ⟨x, b, -, rfl⟩ | ⟨x, -, rfl⟩ | ⟨-, rfl⟩ |
    ⟨w, -, rfl⟩ := perform_next h
  · rw [launch_starts_context hlaunch hs ht]
  · exact absurd ((setOperand_phase s n v).trans hs) ht
  · exact absurd hs ht
  · exact absurd hs ht
  · exact absurd hs ht
  · exact absurd (resetEngine_phase s) ht
  · exact absurd (resetEngine_phase s) ht

/-- Settles O20: no access but a CMD write of INIT's word makes PHASE other than 0 where it was 0. -/
theorem onlyInitStartsAContext : Obligations.OnlyInitStartsAContext := by
  intro s t h hs ht
  obtain ⟨-, rfl⟩ | ⟨a, rest, hhost, hperform⟩ := step_next h
  · exact absurd hs ht
  · obtain rfl := perform_starts_context hperform hs ht
    exact ⟨rest, hhost⟩

/-! ### INIT and WIPE (42_stream.md R141, R152) -/

/-- Settles O38: INIT has no checks, and its effect writes the constants, the counter, PHASE and ERR. -/
theorem initCompletes : Obligations.InitCompletes := exec_init

/-- Settles O43: INIT always completes, and a started context holds the empty message. -/
theorem initHoldsTheEmptyMessage : Obligations.InitHoldsTheEmptyMessage := by
  intro s t h
  rw [exec_init] at h
  injection h with ht
  subst ht
  exact holds_start s.ctx

/-- Settles O47: the phase check is WIPE's only one. -/
theorem wipeClearsTheContext : Obligations.WipeClearsTheContext := fun _ =>
  ⟨fun hlive => exec_of_pass (checks_of_wipe hlive),
    fun hdead => exec_of_fail (checks_of_finalized (.inr (.inr rfl)) hdead)⟩

/-! ### UPDATE (42_stream.md R144 to R146, R155) -/

/-- Settles O39: the four parts of the context that UPDATE leaves, with the length of the message it reads. -/
theorem updateFoldsBlocks : Obligations.UpdateFoldsBlocks := by
  intro s hready
  refine ⟨s.ctx.update s.cfg.be s.message, exec_update hready, ?_, ?_, ?_, ?_⟩
  · rw [update_h, message_length]
  · rw [update_pending, message_length]
  · rw [update_pendingBytes, message_length]
  · rw [update_bits, message_length]

/-- Settles O40: the short path only advances the counter and puts the bytes behind the waiting ones. -/
theorem updateShortFill : Obligations.UpdateShortFill := by
  intro s hready hn hshort
  have hupdate := update_of_short (c := s.ctx) (data := s.message) s.cfg.be hn (by rwa [message_length])
  refine ⟨s.ctx.update s.cfg.be s.message, exec_update hready, ?_, ?_, ?_, ?_⟩
  · rw [hupdate, put_h, advance_h]
  · rw [hupdate, put_bytes _ _ _ (by rw [message_length]; omega), message_length, advance_buf]
  · rw [update_bits, message_length]
  · rw [update_pending, message_length, Nat.mod_eq_of_lt (by omega)]

theorem advance_zero (c : Context) : c.advance 0 = c := by
  obtain ⟨hlo, hhi⟩ := halves_of_bits (c := c.advance 0) (c' := c) (by
    have hlo := c.bitsLo.isLt
    have hhi := c.bitsHi.isLt
    rw [bits_advance, Context.bits]
    omega)
  calc c.advance 0 = { c with bitsLo := (c.advance 0).bitsLo, bitsHi := (c.advance 0).bitsHi } := rfl
    _ = c := by rw [hlo, hhi]

theorem put_nil (c : Context) {off : Nat} (h : off ≤ 64) : c.put off [] = c := by
  have hbytes : (c.put off []).buf.bytes = c.buf.bytes := by
    rw [put_bytes c off [] h, List.append_nil, List.length_nil, Nat.add_zero, List.take_append_drop]
  calc c.put off [] = { c with buf := (c.put off []).buf } := rfl
    _ = c := by rw [Buffer.ext hbytes]

/-- R146: no bytes, no change. -/
theorem update_nil (be : Bool) (c : Context) : c.update be [] = c := by
  have hlt := pending_lt c
  by_cases hn : c.pending = 0
  · rw [update_of_no_pending be [] hn, List.length_nil, advance_zero]
    exact put_nil c (Nat.zero_le _)
  · rw [update_of_short be hn (by rw [List.length_nil]; omega), List.length_nil, advance_zero, put_nil c (by omega)]

/-- Settles O41: an empty buffer passes the range rule at every address and has no byte to be invalid. -/
theorem updateOfLengthZero : Obligations.UpdateOfLengthZero := by
  intro s hlive hlen
  have hzero : s.srcLen.toNat = 0 := by rw [hlen]; rfl
  have hready : s.UpdateReady := ⟨hlive, .inl hzero, fun i hi => absurd hi (by omega)⟩
  have hmessage : s.message = [] := by rw [State.message, hzero]; rfl
  rw [exec_update hready, completedBy, hmessage, update_nil]

/-- Settles O42: UPDATE's whole effect on the context is to append what it reads to the message held. -/
theorem updateExtendsTheMessage : Obligations.UpdateExtendsTheMessage := fun s _ hready hholds =>
  ⟨s.ctx.update s.cfg.be s.message, exec_update hready, holds_update s.cfg.be s.message hholds⟩

/-! ### FINAL (42_stream.md R147 to R153) -/

/-- Settles O44: the digest bytes are the little-endian state words of the one or two last compressions. -/
theorem finalPadsAndWipes : Obligations.FinalPadsAndWipes := by
  intro s hready
  rw [exec_final hready, completedBy, digest_eq]

/-- Settles O45: the padding of the waiting bytes is the end of the padded message. -/
theorem finalWritesTheMessageDigest : Obligations.FinalWritesTheMessageDigest := by
  intro s m hready hholds
  rw [exec_final hready, completedBy, digest_of_holds s.cfg.be hholds]

/-! ### A whole digest (42_stream.md R153, R154) -/

/-- UPDATE over any list of readable chunks extends the message held by their bytes, and leaves MEM, the configuration
and STICKY. -/
theorem feed_holds (chunks : List (Word × Word)) {s : State} {m : List Byte} (hlive : s.phase ≠ .finalized)
    (hholds : s.ctx.Holds m) (hok : ∀ p ∈ chunks, s.chunkOk p) :
    ∃ t, feed chunks s = .next t ∧ t.phase ≠ .finalized ∧ t.ctx.Holds (m ++ s.chunkBytes chunks) ∧
      t.cfg = s.cfg ∧ t.mem = s.mem ∧ t.sticky = s.sticky := by
  induction chunks generalizing s m with
  | nil => exact ⟨s, rfl, hlive, by simpa [State.chunkBytes] using hholds, rfl, rfl, rfl⟩
  | cons p chunks ih =>
    obtain ⟨a, n⟩ := p
    obtain ⟨hrange, hvalid⟩ := hok (a, n) List.mem_cons_self
    have hupdate := exec_update (s := { s with srcAddr := a, srcLen := n }) ⟨hlive, hrange, hvalid⟩
    obtain ⟨t, hfeed, htlive, htholds, hcfg, hmem, hsticky⟩ :=
      ih (s := completedBy .update { s with srcAddr := a, srcLen := n }) Phase.noConfusion
        (holds_update s.cfg.be (s.mem.readBytes a.toNat n.toNat) hholds)
        fun p hp => hok p (List.mem_cons_of_mem _ hp)
    refine ⟨t, ?_, htlive, ?_, hcfg, hmem, hsticky⟩
    · rw [feed, hupdate]
      exact hfeed
    · rw [List.append_assoc] at htholds
      exact htholds

/-- Settles O46: INIT starts with the empty message, the UPDATEs append the chunks, and FINAL writes the digest of what
is held. -/
theorem digestIsIndependentOfTheSplit : Obligations.DigestIsIndependentOfTheSplit := by
  intro s chunks dst hok hrange hvalid
  obtain ⟨t, hfeed, hlive, hholds, hcfg, hmem, hsticky⟩ :=
    feed_holds chunks (s := completedBy .init s) Phase.noConfusion (holds_start s.ctx) hok
  have hready : ({ t with dstAddr := dst } : State).FinalReady := ⟨hlive, hrange, fun i hi => hcfg ▸ hvalid i hi⟩
  have hsequence : digestSequence chunks dst s = exec .final { t with dstAddr := dst } := by
    rw [digestSequence, exec_init]
    simp only [andThen, hfeed]
  exact ⟨_, hsequence.trans (finalWritesTheMessageDigest _ _ hready hholds),
    congrArg (fun mem => Memory.writeBytes mem dst.toNat _) hmem, rfl, rfl, rfl, hsticky⟩

end Sys2Proof.Machine

namespace Sys2Proof.Machine

open Sys2Proof

/-! ### The key unit, free of `BE` and of `K` (43_otp.md R171, R177) -/

/-- R177: the private context is started afresh, so only the message is left of its input. -/
theorem digestOnK_eq_md4 (be : Bool) (m : List Byte) (k : Context) : digestOnK be m k = md4 m :=
  digest_of_holds be (holds_update be m (holds_start k))

theorem le32_xor (a0 a1 a2 a3 b0 b1 b2 b3 : Byte) :
    le32 a0 a1 a2 a3 ^^^ le32 b0 b1 b2 b3 = le32 (a0 ^^^ b0) (a1 ^^^ b1) (a2 ^^^ b2) (a3 ^^^ b3) := by
  have h32 : a3 ++ a2 ^^^ b3 ++ b2 = (a3 ^^^ b3) ++ (a2 ^^^ b2) := BitVec.xor_append
  have h21 : a3 ++ a2 ++ a1 ^^^ b3 ++ b2 ++ b1 = (a3 ++ a2 ^^^ b3 ++ b2) ++ (a1 ^^^ b1) := BitVec.xor_append
  rw [h32] at h21
  exact BitVec.xor_append.trans (congrArg (· ++ (a0 ^^^ b0)) h21)

/-- The bytes of the exclusive or of two native words are the exclusive ors of their bytes, in either order. -/
theorem nativeBytes32_xor (be : Bool) (d : List Byte) (x y : Nat) :
    nativeBytes32 be (nativeLoad32 be d x ^^^ nativeLoad32 be d y) =
      [d.getD x 0 ^^^ d.getD y 0, d.getD (x + 1) 0 ^^^ d.getD (y + 1) 0, d.getD (x + 2) 0 ^^^ d.getD (y + 2) 0,
        d.getD (x + 3) 0 ^^^ d.getD (y + 3) 0] := by
  cases be
  case false =>
    simp only [nativeBytes32, nativeLoad32, Bool.false_eq_true, if_false, le32_xor, leBytes32_le32]
  case true =>
    simp only [nativeBytes32, nativeLoad32, if_true, be32_eq_le32, le32_xor, beBytes32_eq_reverse, leBytes32_le32]
    rfl

/-- R171: FOLD byte by byte. -/
theorem fold_eq_foldBytes (be : Bool) {d : List Byte} (h : d.length = 16) : fold be d = foldBytes d := by
  have hbytes : foldBytes d = (List.range 8).map fun i => d.getD i 0 ^^^ d.getD (8 + i) 0 := by
    apply List.ext_getElem
    · simp [foldBytes, h]
    · intro i _ hi
      rw [List.length_map, List.length_range] at hi
      simp only [foldBytes, List.getElem_zipWith, List.getElem_take, List.getElem_drop, List.getElem_map,
        List.getElem_range]
      rw [List.getD_eq_getElem _ _ (by omega), List.getD_eq_getElem _ _ (by omega)]
  rw [fold, nativeBytes32_xor, nativeBytes32_xor, hbytes]
  rfl

/-! ### What the host cannot see (10_state.md R23, 20_memory.md R54, 42_stream.md R153) -/

/-- Two contexts that differ at most in the stale tail of the buffer. -/
structure Context.SameButStale (c c' : Context) : Prop where
  h : c.h = c'.h
  bitsLo : c.bitsLo = c'.bitsLo
  bitsHi : c.bitsHi = c'.bitsHi
  pendingBytes : c.pendingBytes = c'.pendingBytes

/-- The machine with another `BE`, host context, `K` and latest reply. -/
def State.withHidden (s : State) (be : Bool) (c k : Context) (r : Option Reply) : State :=
  { s with cfg := { s.cfg with be := be }, ctx := c, kd := k, reply := r }

theorem sameButOrder_withHidden {s : State} {c : Context} (be : Bool) (k : Context) (r : Option Reply)
    (h : s.ctx.SameButStale c) : s.SameButOrder (s.withHidden be c k r) :=
  ⟨rfl, rfl, h.h, h.bitsLo, h.bitsHi, h.pendingBytes, rfl, rfl, rfl, rfl, rfl, rfl, rfl, rfl, rfl, rfl, rfl⟩

/-- The pairs of O55 are a machine beside itself with other hidden parts. -/
theorem eq_withHidden_of_sameButOrder {s t : State} (h : s.SameButOrder t) :
    t = s.withHidden t.cfg.be t.ctx t.kd t.reply ∧ s.ctx.SameButStale t.ctx := by
  obtain ⟨hscratch, hholes, hh, hlo, hhi, hpending, hphase, hsrcAddr, hsrcLen, hauxAddr, hauxLen, hdstAddr, herr,
    hsticky, hmem, hhost, hfree⟩ := h
  refine ⟨?_, hh, hlo, hhi, hpending⟩
  simp only [State.withHidden, hscratch, hholes, hphase, hsrcAddr, hsrcLen, hauxAddr, hauxLen, hdstAddr, herr, hsticky,
    hmem, hhost, hfree]

theorem sameButStale_refl (c : Context) : c.SameButStale c := ⟨rfl, rfl, rfl, rfl⟩

theorem sameButStale_start (c c' : Context) : c.start.SameButStale c'.start :=
  ⟨rfl, rfl, rfl, by simp [Context.pendingBytes]⟩

/-- UPDATE reads of a context only what is not stale, and folds the same words for both values of `BE`. -/
theorem sameButStale_update {c c' : Context} (be be' : Bool) (data : List Byte) (h : c.SameButStale c') :
    (c.update be data).SameButStale (c'.update be' data) := by
  have hpending := pending_congr h.bitsLo
  obtain ⟨hlo, hhi⟩ := halves_of_bits (c := c.update be data) (c' := c'.update be' data) (by
    rw [update_bits, update_bits, bits_congr h.bitsLo h.bitsHi])
  refine ⟨?_, hlo, hhi, ?_⟩
  · rw [update_h, update_h, hpending, h.h, h.pendingBytes]
  · rw [update_pendingBytes, update_pendingBytes, hpending, h.pendingBytes]

theorem digest_congr {c c' : Context} (be be' : Bool) (h : c.SameButStale c') : c.digest be = c'.digest be' := by
  rw [digest_eq, digest_eq, Context.finalState, Context.finalState, pending_congr h.bitsLo, h.h, h.bitsLo, h.bitsHi,
    h.pendingBytes]

/-- No check reads a hidden part. -/
theorem checksOf_withHidden (i : Instr) (s : State) (be : Bool) (c k : Context) (r : Option Reply) :
    checksOf i (s.withHidden be c k r) = checksOf i s := by
  cases i <;> rfl

/-- R53, R54: each effect leaves the hidden parts hidden, and what it stores depends on none of them. -/
theorem completedBy_withHidden (i : Instr) {s : State} {c : Context} (be : Bool) (k : Context) (r : Option Reply)
    (h : s.ctx.SameButStale c) :
    ∃ c' k' : Context, completedBy i (s.withHidden be c k r) = (completedBy i s).withHidden be c' k' r ∧
      (completedBy i s).ctx.SameButStale c' := by
  have hkey : ∀ m, fold be (digestOnK be m k) = fold s.cfg.be (digestOnK s.cfg.be m s.kd) := fun m => by
    rw [digestOnK_eq_md4, digestOnK_eq_md4, fold_eq_foldBytes be (md4_length m), fold_eq_foldBytes _ (md4_length m)]
  cases i
  case init => exact ⟨c.start, k, rfl, sameButStale_start s.ctx c⟩
  case update => exact ⟨c.update be s.message, k, rfl, sameButStale_update s.cfg.be be s.message h⟩
  case final =>
    refine ⟨Context.zero, k, ?_, sameButStale_refl _⟩
    rw [completedBy, completedBy, digest_congr s.cfg.be be h]
    rfl
  case wipe => exact ⟨Context.zero, k, rfl, sameButStale_refl _⟩
  case keycrunch =>
    refine ⟨c, Context.zero, ?_, h⟩
    rw [completedBy, completedBy, ← hkey]
    rfl
  case rehash =>
    refine ⟨c, Context.zero, ?_, h⟩
    rw [completedBy, completedBy, ← hkey]
    rfl

theorem exec_withHidden {i : Instr} {s t : State} {c : Context} (be : Bool) (k : Context) (r : Option Reply)
    (hc : s.ctx.SameButStale c) (h : exec i s = .next t) :
    ∃ c' k' : Context, exec i (s.withHidden be c k r) = .next (t.withHidden be c' k' r) ∧ t.ctx.SameButStale c' := by
  have hchecks := checksOf_withHidden i s be c k r
  obtain ⟨hpass, rfl⟩ | ⟨code, hfail, -, -, rfl⟩ := exec_cases i h
  · obtain ⟨c', k', heffect, hc'⟩ := completedBy_withHidden i be k r hc
    exact ⟨c', k', (exec_of_pass (hchecks ▸ hpass)).trans (congrArg _ heffect), hc'⟩
  · exact ⟨c, k, exec_of_fail (hchecks ▸ hfail), hc⟩

theorem launch_withHidden {w : Word} {s t : State} {c : Context} (be : Bool) (k : Context) (r : Option Reply)
    (hc : s.ctx.SameButStale c) (h : launch w s = .next t) :
    ∃ c' k' : Context, launch w (s.withHidden be c k r) = .next (t.withHidden be c' k' r) ∧ t.ctx.SameButStale c' := by
  obtain ⟨i, hdecode, hexec⟩ | ⟨⟨_, hdecode⟩, rfl⟩ := launch_next h
  · rw [launch_of_decode hdecode]
    exact exec_withHidden be k r hc hexec
  · exact ⟨c, k, launch_of_illegal hdecode _, hc⟩

theorem launch_reply {w : Word} {s t : State} (h : launch w s = .next t) : t.reply = s.reply := by
  obtain ⟨i, -, hexec⟩ | ⟨-, rfl⟩ := launch_next h
  · obtain ⟨-, -, -, -, -, -, -, hreply, -⟩ := exec_frame i hexec
    exact hreply
  · exact refuse_reply s _

/-- What a cut command leaves in MEM depends on nothing hidden. -/
theorem cutMemory_withHidden (w : Word) {s : State} {c : Context} (be : Bool) (k : Context) (r : Option Reply)
    (hc : s.ctx.SameButStale c) : (s.withHidden be c k r).cutMemory w = s.cutMemory w := by
  cases hdecode : decode w with
  | error e =>
    simp only [State.cutMemory, hdecode]
    rfl
  | ok i =>
    obtain ⟨u, hu⟩ := exec_total i s
    obtain ⟨c', k', hu', -⟩ := exec_withHidden be k r hc hu
    simp only [State.cutMemory, hdecode, hu, hu']
    rfl

theorem setOperand_withHidden (s : State) (be : Bool) (c k : Context) (r : Option Reply) (n : Nat) (v : Word) :
    (s.withHidden be c k r).setOperand n v = (s.setOperand n v).withHidden be c k r := by
  unfold State.setOperand
  split <;> rfl

/-- Of the registers only CFG shows a hidden part. -/
theorem regRead_withHidden (s : State) (be : Bool) (c k : Context) (r : Option Reply) {n : Nat} (hn : n ≠ 7) :
    (s.withHidden be c k r).regRead n = s.regRead n := by
  unfold State.regRead
  split
  case h_3 => exact absurd rfl hn
  all_goals rfl

/-- One access on two machines that differ in hidden parts: the next machines differ in no others, and unless it reads
CFG it keeps equal replies equal. -/
theorem perform_withHidden {a : HostAccess} {s t : State} {c : Context} (be : Bool) (k : Context) (r : Option Reply)
    (hc : s.ctx.SameButStale c) (h : perform a s = .next t) :
    ∃ (c' k' : Context) (r' : Option Reply), perform a (s.withHidden be c k r) = .next (t.withHidden be c' k' r') ∧
      t.ctx.SameButStale c' ∧ (s.reply = r → a ≠ .regRead 7 32 → t.reply = r') := by
  obtain ⟨w, rfl, hlaunch⟩ | ⟨n, v, rfl, h0, h8, rfl⟩ | ⟨n, rfl, h8, rfl⟩ | ⟨x, b, rfl, rfl⟩ | ⟨x, rfl, rfl⟩ |
    ⟨rfl, rfl⟩ | ⟨w, rfl, rfl⟩ := perform_next h
  · obtain ⟨c', k', hlaunch', hc'⟩ := launch_withHidden be k r hc hlaunch
    exact ⟨c', k', r, hlaunch', hc', fun hr _ => (launch_reply hlaunch).trans hr⟩
  · refine ⟨c, k, r, ?_, by rwa [setOperand_ctx], fun hr _ => (setOperand_reply s n v).trans hr⟩
    rw [perform_regWrite h0 h8, setOperand_withHidden]
  · refine ⟨c, k, some (.word ((s.withHidden be c k r).regRead n)), perform_regRead h8 _, hc, fun _ hcfg => ?_⟩
    have hn : n ≠ 7 := fun hn => hcfg (by rw [hn])
    rw [regRead_withHidden s be c k r hn]
  · exact ⟨c, k, r, rfl, hc, fun hr _ => hr⟩
  · exact ⟨c, k, some (.byte (s.mem.read x.toNat)), rfl, hc, fun _ _ => rfl⟩
  · exact ⟨Context.zero, Context.zero, none, rfl, sameButStale_refl _, fun _ _ => rfl⟩
  · refine ⟨Context.zero, Context.zero, none, ?_, sameButStale_refl _, fun _ _ => rfl⟩
    simp only [perform, cutMemory_withHidden w be k r hc]
    rfl

/-- R31: whether an access is one of the port is a matter of the access alone. -/
theorem perform_fault {a : HostAccess} {s : State} {f : Fault} (h : perform a s = .fault f) (s' : State) :
    perform a s' = .fault f := by
  cases a with
  | regWrite n width v =>
    cases hcheck : portCheck n width with
    | some g =>
      rw [perform_regWrite_of_portCheck hcheck] at h ⊢
      exact h
    | none =>
      simp only [perform, hcheck, State.regWrite] at h
      obtain ⟨t, hlaunch⟩ := launch_total v s
      split at h
      · rw [hlaunch] at h
        cases h
      · cases h
  | regRead n width =>
    cases hcheck : portCheck n width with
    | some g =>
      rw [perform_regRead_of_portCheck hcheck] at h ⊢
      exact h
    | none =>
      simp only [perform, hcheck] at h
      cases h
  | memStore x b => cases h
  | memLoad x => cases h
  | reset => cases h
  | cutCommand w => cases h

/-- Settles O55: the second machine is the first with other hidden parts, a fault is a matter of the access alone, and
every access keeps the hidden parts hidden, but for the read of CFG. -/
theorem byteOrderAndStaleBytesAreInvisible : Obligations.ByteOrderAndStaleBytesAreInvisible := by
  intro s s' hsame
  obtain ⟨hs', hctx⟩ := eq_withHidden_of_sameButOrder hsame
  constructor
  · intro f h
    cases hhost : s.host with
    | nil =>
      rw [step_of_host_nil hhost] at h
      cases h
    | cons a rest =>
      rw [step_of_host_cons hhost] at h
      rw [step_of_host_cons (hsame.host ▸ hhost)]
      exact perform_fault h _
  · intro t h
    obtain ⟨hhost, rfl⟩ | ⟨a, rest, hhost, hperform⟩ := step_next h
    · exact ⟨s', step_of_host_nil (hsame.host ▸ hhost), hsame, fun hreply _ => hreply⟩
    · obtain ⟨c', k', r', hperform', hc', hreply⟩ :=
        perform_withHidden (s := s.takeAccess rest) s'.cfg.be s'.kd none hctx hperform
      refine ⟨t.withHidden s'.cfg.be c' k' r', ?_, sameButOrder_withHidden _ _ _ hc', fun _ hcfg => ?_⟩
      · rw [step_of_host_cons (hsame.host ▸ hhost), hs']
        exact hperform'
      · refine hreply rfl fun ha => hcfg rest ?_
        rw [hhost, ha]

end Sys2Proof.Machine

namespace Sys2Proof.Machine

open Sys2Proof

/-! ### The frame of the key commands (43_otp.md R174, R176, R177) -/

/-- R177: the two commands run on `K`, so of the two contexts only `K` is written, by its wipe. -/
theorem completedBy_keyCommand {i : Instr} (hi : i = .keycrunch ∨ i = .rehash) (s : State) :
    (completedBy i s).ctx = s.ctx ∧ (completedBy i s).phase = s.phase ∧ (completedBy i s).kd = Context.zero := by
  obtain rfl | rfl := hi
  · exact ⟨rfl, rfl, rfl⟩
  · exact ⟨rfl, rfl, rfl⟩

theorem exec_context_of_keyCommand {i : Instr} {s t : State} (hi : i = .keycrunch ∨ i = .rehash)
    (h : exec i s = .next t) : t.ctx = s.ctx ∧ t.phase = s.phase := by
  obtain ⟨-, rfl⟩ | ⟨code, -, -, -, rfl⟩ := exec_cases i h
  · obtain ⟨hctx, hphase, -⟩ := completedBy_keyCommand hi s
    exact ⟨hctx, hphase⟩
  · exact ⟨rfl, rfl⟩

theorem exec_kd_of_keyCommand {i : Instr} {s t : State} (hi : i = .keycrunch ∨ i = .rehash) (h : exec i s = .next t) :
    (t.err = .ok → t.kd = Context.zero) ∧ (t.err ≠ .ok → t.kd = s.kd) := by
  obtain ⟨-, rfl⟩ | ⟨code, -, hcode, -, rfl⟩ := exec_cases i h
  · obtain ⟨-, -, hkd⟩ := completedBy_keyCommand hi s
    exact ⟨fun _ => hkd, fun herr => absurd (completedBy_err i s) herr⟩
  · exact ⟨fun herr => absurd herr hcode, fun _ => rfl⟩

/-- Settles O24: both commands have the 8 bytes of the key span as their destination, and both run on `K` alone. -/
theorem frameOfKeyCommands : Obligations.FrameOfKeyCommands := by
  intro i s t hi h
  have hdest : destBytes i = 8 := by obtain rfl | rfl := hi <;> rfl
  obtain ⟨hctx, hphase⟩ := exec_context_of_keyCommand hi h
  obtain ⟨hsrcAddr, hsrcLen, hauxAddr, hauxLen, hdstAddr, hcfg, hhost, hreply, hfree⟩ := exec_frame i h
  obtain ⟨hwiped, hkept⟩ := exec_kd_of_keyCommand hi h
  exact ⟨hctx, hphase, hsrcAddr, hsrcLen, hauxAddr, hauxLen, hdstAddr, hcfg, hhost, hreply, hfree, exec_sticky h,
    hwiped, hkept, fun a ha => exec_mem_outside i h a (hdest ▸ ha)⟩

/-! ### What changes the host context (10_state.md R39) -/

/-- A command that changes the host context or PHASE has completed and is no key command. -/
theorem exec_context {i : Instr} {s t : State} (h : exec i s = .next t) :
    (t.ctx = s.ctx ∧ t.phase = s.phase) ∨ (t.err = .ok ∧ i ≠ .keycrunch ∧ i ≠ .rehash) := by
  by_cases hkey : i = .keycrunch ∨ i = .rehash
  · exact .inl (exec_context_of_keyCommand hkey h)
  · obtain ⟨-, rfl⟩ | ⟨code, -, -, -, rfl⟩ := exec_cases i h
    · exact .inr ⟨completedBy_err i s, not_or.mp hkey⟩
    · exact .inl ⟨rfl, rfl⟩

theorem launch_context {w : Word} {s t : State} (h : launch w s = .next t) :
    (t.ctx = s.ctx ∧ t.phase = s.phase) ∨
      ∃ i, w = encode i ∧ t.err = .ok ∧ i ≠ .keycrunch ∧ i ≠ .rehash := by
  obtain ⟨i, hdecode, hexec⟩ | ⟨-, rfl⟩ := launch_next h
  · exact (exec_context hexec).imp_right fun hcompleted => ⟨i, word_of_decode hdecode, hcompleted⟩
  · exact .inl ⟨rfl, rfl⟩

theorem perform_context {a : HostAccess} {s t : State} (h : perform a s = .next t) :
    (t.ctx = s.ctx ∧ t.phase = s.phase) ∨
      (∃ i, a = .regWrite 0 32 (encode i) ∧ t.err = .ok ∧ i ≠ .keycrunch ∧ i ≠ .rehash) ∨
      a = .reset ∨ ∃ w, a = .cutCommand w := by
  obtain ⟨w, rfl, hlaunch⟩ | ⟨n, v, -, -, -, rfl⟩ | ⟨n, -, -, rfl⟩ | ⟨x, b, -, rfl⟩ | ⟨x, -, rfl⟩ | ⟨ha, -⟩ |
    ⟨w, ha, -⟩ := perform_next h
  · obtain hkept | ⟨i, rfl, hcompleted⟩ := launch_context hlaunch
    · exact .inl hkept
    · exact .inr (.inl ⟨i, rfl, hcompleted⟩)
  · exact .inl ⟨setOperand_ctx s n v, setOperand_phase s n v⟩
  · exact .inl ⟨rfl, rfl⟩
  · exact .inl ⟨rfl, rfl⟩
  · exact .inl ⟨rfl, rfl⟩
  · exact .inr (.inr (.inl ha))
  · exact .inr (.inr (.inr ⟨w, ha⟩))

/-- Settles O26: an access keeps both, or is a completed CMD write of one of the four commands, or is a reset. -/
theorem contextChangesOnlyByItsCommands : Obligations.ContextChangesOnlyByItsCommands := by
  intro s t h hchanged
  obtain ⟨-, rfl⟩ | ⟨a, rest, hhost, hperform⟩ := step_next h
  · exact absurd hchanged (not_or.mpr ⟨not_not.mpr rfl, not_not.mpr rfl⟩)
  · obtain ⟨hctx, hphase⟩ | ⟨i, rfl, hcompleted⟩ | rfl | ⟨w, rfl⟩ := perform_context hperform
    · exact absurd hchanged (not_or.mpr ⟨not_not.mpr hctx, not_not.mpr hphase⟩)
    · exact .inl ⟨i, rest, hhost, hcompleted⟩
    · exact .inr (.inl ⟨rest, hhost⟩)
    · exact .inr (.inr ⟨w, rest, hhost⟩)

/-! ### FOLD, LOWER and MASK7 byte by byte (43_otp.md R171 to R173) -/

/-- Settles O48: the native words are taken apart into the same bytes, in the same order, that they were read from. -/
theorem foldByteByByte : Obligations.FoldByteByByte := fun be _ hlength => fold_eq_foldBytes be hlength

/-- R172 as numbers: a capital letter has room for `0x20`, so the sum does not wrap. -/
theorem lowerByte_toNat (b : Byte) :
    (lowerByte b).toNat = if 0x41 ≤ b.toNat ∧ b.toNat ≤ 0x5A then b.toNat + 0x20 else b.toNat := by
  have hcapital : 0x41#8 ≤ b ∧ b ≤ 0x5A#8 ↔ 0x41 ≤ b.toNat ∧ b.toNat ≤ 0x5A := Iff.rfl
  by_cases h : 0x41 ≤ b.toNat ∧ b.toNat ≤ 0x5A
  · rw [lowerByte, if_pos (hcapital.mpr h), if_pos h, BitVec.toNat_add, BitVec.toNat_ofNat]
    omega
  · rw [lowerByte, if_neg (mt hcapital.mp h), if_neg h]

theorem toNat_and_0x7F (b : Byte) : (b &&& 0x7F#8).toNat = b.toNat % 128 := by
  rw [BitVec.toNat_and]
  exact Nat.and_two_pow_sub_one_eq_mod b.toNat 7

theorem getD_lower (bs : List Byte) (i : Nat) : (lower bs).getD i 0 = lowerByte (bs.getD i 0) :=
  List.getD_map bs 0 lowerByte

theorem getD_mask7 (bs : List Byte) (i : Nat) : (mask7 bs).getD i 0 = bs.getD i 0 &&& 0x7F#8 :=
  List.getD_map bs 0 fun b => b &&& 0x7F#8

/-- Settles O49: both map a function over the bytes, and each function is arithmetic on the byte's number. -/
theorem lowerAndMaskByteByByte : Obligations.LowerAndMaskByteByByte := by
  intro bs
  refine ⟨List.length_map _, List.length_map _, fun i _ => ⟨?_, ?_⟩⟩
  · rw [getD_lower, lowerByte_toNat]
  · rw [getD_mask7, toNat_and_0x7F]

/-! ### KEYCRUNCH and REHASH (43_otp.md R174 to R178) -/

theorem checks_of_crunchReady {s : State} (h : s.CrunchReady) : firstError (checksOf .keycrunch s) = none := by
  have hseedRange : s.srcSpan.inRange = true := (inRange_iff _).mpr h.seedRange
  have hpassRange : s.auxSpan.inRange = true := (inRange_iff _).mpr h.passRange
  have hkeyRange : s.keySpan.inRange = true := (inRange_iff _).mpr (.inr h.keyRange)
  have hseedValid : s.srcSpan.valid s.cfg .read = true := (valid_iff _ _ _).mpr h.seedValid
  have hpassValid : s.auxSpan.valid s.cfg .read = true := (valid_iff _ _ _).mpr h.passValid
  have hkeyValid : s.keySpan.valid s.cfg .write = true := (valid_iff _ _ _).mpr h.keyValid
  have hfits := (scratchFits_iff s).mpr h.fits
  simp only [checksOf, firstError, hseedRange, hpassRange, hkeyRange, hseedValid, hpassValid, hkeyValid, hfits,
    Bool.and_self, if_true]

theorem checks_of_rehashReady {s : State} (h : s.RehashReady) : firstError (checksOf .rehash s) = none := by
  have hrange : s.keySpan.inRange = true := (inRange_iff _).mpr (.inr h.range)
  have hread : s.keySpan.valid s.cfg .read = true := (valid_iff _ _ _).mpr h.readable
  have hwrite : s.keySpan.valid s.cfg .write = true := (valid_iff _ _ _).mpr h.writable
  simp only [checksOf, firstError, hrange, hread, hwrite, Bool.and_self, if_true]

/-- The key bytes depend on the message alone, not on `BE` or `K`. -/
theorem fold_digestOnK (be : Bool) (m : List Byte) (k : Context) :
    fold be (digestOnK be m k) = foldBytes (md4 m) := by
  rw [digestOnK_eq_md4, fold_eq_foldBytes be (md4_length m)]

/-- Settles O50: the checks pass, and the effect's `digestOnK` is the MD4 of the scratch buffer. -/
theorem keycrunchWritesTheKey : Obligations.KeycrunchWritesTheKey := by
  intro s hready
  rw [exec_of_pass (checks_of_crunchReady hready), completedBy, fold_digestOnK, crunchInput]

/-- Settles O51: the checks pass, and the effect's `digestOnK` is the MD4 of the key. -/
theorem rehashReplacesTheKey : Obligations.RehashReplacesTheKey := by
  intro s hready
  rw [exec_of_pass (checks_of_rehashReady hready), completedBy, fold_digestOnK]

/-- Settles O53: the bytes written are a function of the lowered seed and the passphrase, for every configuration. -/
theorem keyDependsOnSeedAndPassphraseOnly : Obligations.KeyDependsOnSeedAndPassphraseOnly := by
  intro s s' hready hready' hseed hpass
  have hexec := keycrunchWritesTheKey s hready
  have hexec' := keycrunchWritesTheKey s' hready'
  rw [← hseed, ← hpass] at hexec'
  exact ⟨_, _, _, foldBytes_md4_length _, hexec, hexec', rfl, rfl⟩

/-- One link of a REHASH chain: the new key is read back, and the next REHASH is ready again. -/
theorem exec_rehash_link {s : State} (hwf : s.mem.wf = true) (hready : s.RehashReady) :
    ∃ t, exec .rehash s = .next t ∧ t.mem.wf = true ∧ t.RehashReady ∧ t.key = foldBytes (md4 s.key) := by
  have hexec := rehashReplacesTheKey s hready
  exact ⟨_, hexec, exec_mem_wf .rehash hexec hwf, ⟨hready.range, hready.readable, hready.writable⟩,
    readBytes_writeBytes_same (foldBytes (md4 s.key)) s.mem s.dstAddr.toNat hwf hready.range⟩

/-- Settles O54: the second link starts with the key that the first one left. -/
theorem rehashChains : Obligations.RehashChains := by
  intro s hwf hready
  obtain ⟨t, hexec, hwf', hready', hkey⟩ := exec_rehash_link hwf hready
  obtain ⟨u, hexec', -, -, hkey'⟩ := exec_rehash_link hwf' hready'
  exact ⟨t, u, hexec, hexec', by rw [hkey', hkey]⟩

/-! ### The block that REHASH compresses (43_otp.md R176) -/

/-- An 8-byte message fits into one block with its padding: 47 zeros, then the length of 64 bits. -/
theorem padMessage_of_length_eight {m : List Byte} (h : m.length = 8) :
    padMessage m = (m ++ [0x80#8] ++ List.replicate 47 0#8) ++ (leBytes32 0x00000040#32 ++ leBytes32 0#32) := by
  rw [padMessage_eq, h, padding]
  simp only [List.append_assoc]
  rfl

/-- The MD4 of an 8-byte message is one compression of that block. -/
theorem md4_of_length_eight {m : List Byte} (h : m.length = 8) :
    md4 m = stateBytes (compress initialState
      ((leWords (m ++ [0x80#8] ++ List.replicate 47 0#8)).take 14 ++ [0x00000040#32, 0#32])) := by
  have hcount : (padMessage m).length / 64 = 1 := by rw [padMessage_blocks, h]; rfl
  have hfront : (m ++ [0x80#8] ++ List.replicate 47 0#8).length = 56 := by simp [h]
  have hlength : (padMessage m).length = 64 := by
    rw [padMessage_of_length_eight h, List.length_append, hfront]
    rfl
  rw [md4, hcount, foldBlocks_one _ _ hlength, padMessage_of_length_eight h, leWords_of_trailer _ _ hfront]

theorem le32_0x80 : le32 0x80#8 0#8 0#8 0#8 = 0x00000080#32 := by decide

theorem le32_zero : le32 0#8 0#8 0#8 0#8 = 0#32 := by decide

/-- Settles O52: the block's words are read off it, the key in the first two and `0x80` in the third. -/
theorem rehashCompressesOneBlock : Obligations.RehashCompressesOneBlock := by
  intro b0 b1 b2 b3 b4 b5 b6 b7
  have hwords : (leWords ([b0, b1, b2, b3, b4, b5, b6, b7] ++ [0x80#8] ++ List.replicate 47 0#8)).take 14 =
      [le32 b0 b1 b2 b3, le32 b4 b5 b6 b7, le32 0x80#8 0#8 0#8 0#8] ++ List.replicate 11 (le32 0#8 0#8 0#8 0#8) := rfl
  rw [le32_0x80, le32_zero] at hwords
  rw [md4_of_length_eight rfl, hwords]

end Sys2Proof.Machine

namespace Sys2Proof.Machine

open Sys2Proof

/-! ### Every access of the port completes (60_exceptions.md R190, R203; 10_state.md R31) -/

theorem wellFormed_regWrite_iff {n width : Nat} {v : Word} :
    (HostAccess.regWrite n width v).wellFormed = true ↔ n < 8 ∧ width = 32 := by
  simp [HostAccess.wellFormed]

theorem wellFormed_regRead_iff {n width : Nat} :
    (HostAccess.regRead n width).wellFormed = true ↔ n < 8 ∧ width = 32 := by
  simp [HostAccess.wellFormed]

/-- Only a register access can be ill-formed, and only a CMD write does more than one update of the state. -/
theorem perform_total {a : HostAccess} (h : a.wellFormed = true) (s : State) : ∃ t, perform a s = .next t := by
  cases a with
  | regWrite n width v =>
    obtain ⟨h8, rfl⟩ := wellFormed_regWrite_iff.mp h
    obtain rfl | h0 := Nat.eq_zero_or_pos n
    · exact launch_total v s
    · exact ⟨_, perform_regWrite h0 h8 v s⟩
  | regRead n width =>
    obtain ⟨h8, rfl⟩ := wellFormed_regRead_iff.mp h
    exact ⟨_, perform_regRead h8 s⟩
  | memStore x b => exact ⟨_, perform_memStore x b s⟩
  | memLoad x => exact ⟨_, perform_memLoad x s⟩
  | reset => exact ⟨_, rfl⟩
  | cutCommand w => exact ⟨_, rfl⟩

/-- Settles O7: the idle step answers the state itself, and a well-formed access completes in every state. -/
theorem everyAccessCompletes : Obligations.EveryAccessCompletes := by
  intro s hwf
  cases hhost : s.host with
  | nil => exact ⟨s, step_of_host_nil hhost⟩
  | cons a rest =>
    rw [step_of_host_cons hhost]
    exact perform_total (hwf a rest hhost) _

/-! ### Completion or refusal (60_exceptions.md R190) -/

theorem exec_outcome {i : Instr} {s t : State} (h : exec i s = .next t) :
    t.err = .ok ∨ ∃ code, code ≠ .ok ∧ t = s.refuse code := by
  obtain ⟨-, rfl⟩ | ⟨code, -, hcode, -, rfl⟩ := exec_cases i h
  · exact .inl (completedBy_err i s)
  · exact .inr ⟨code, hcode, rfl⟩

theorem launch_outcome {w : Word} {s t : State} (h : launch w s = .next t) :
    t.err = .ok ∨ ∃ code, code ≠ .ok ∧ t = s.refuse code := by
  obtain ⟨i, -, hexec⟩ | ⟨-, rfl⟩ := launch_next h
  · exact exec_outcome hexec
  · exact .inr ⟨.illegalCmd, ErrCode.noConfusion, rfl⟩

/-- Settles O17: a launch always answers, and its refusal is `State.refuse`, which writes ERR and STICKY alone. -/
theorem refusalChangesNothingElse : Obligations.RefusalChangesNothingElse := by
  intro w s
  obtain ⟨t, h⟩ := launch_total w s
  exact ⟨t, h, launch_outcome h⟩

/-! ### The priority of the causes (60_exceptions.md R198) -/

/-- The code that a list of checks leaves in ERR. -/
def reported (checks : List (Bool × ErrCode)) : ErrCode := (firstError checks).getD .ok

theorem exec_err {i : Instr} {s t : State} (h : exec i s = .next t) : t.err = reported (checksOf i s) := by
  obtain ⟨hpass, rfl⟩ | ⟨code, hfail, -, -, rfl⟩ := exec_cases i h
  · rw [completedBy_err, reported, hpass, Option.getD_none]
  · rw [refuse_err, reported, hfail, Option.getD_some]

section Priority
variable {a b c : Bool} {A B C : Prop} {codeA codeB codeC : ErrCode} {checks : List (Bool × ErrCode)}

theorem reported_of_pass (ha : a = true ↔ A) (h : A) : reported ((a, codeA) :: checks) = reported checks := by
  rw [reported, firstError, if_pos (ha.mpr h), reported]

theorem reported_of_fail (ha : a = true ↔ A) (h : ¬A) : reported ((a, codeA) :: checks) = codeA := by
  rw [reported, firstError, if_neg (mt ha.mp h), Option.getD_some]

theorem reported_of_one (ha : a = true ↔ A) :
    (¬A → reported [(a, codeA)] = codeA) ∧ (A → reported [(a, codeA)] = .ok) :=
  ⟨reported_of_fail ha, reported_of_pass ha⟩

theorem reported_of_two (ha : a = true ↔ A) (hb : b = true ↔ B) :
    (¬A → reported [(a, codeA), (b, codeB)] = codeA) ∧ (A → ¬B → reported [(a, codeA), (b, codeB)] = codeB) ∧
      (A → B → reported [(a, codeA), (b, codeB)] = .ok) := by
  obtain ⟨hfail, hpass⟩ := reported_of_one (codeA := codeB) hb
  exact ⟨reported_of_fail ha, fun hA hB => (reported_of_pass ha hA).trans (hfail hB),
    fun hA hB => (reported_of_pass ha hA).trans (hpass hB)⟩

theorem reported_of_three (ha : a = true ↔ A) (hb : b = true ↔ B) (hc : c = true ↔ C) :
    (¬A → reported [(a, codeA), (b, codeB), (c, codeC)] = codeA) ∧
      (A → ¬B → reported [(a, codeA), (b, codeB), (c, codeC)] = codeB) ∧
      (A → B → ¬C → reported [(a, codeA), (b, codeB), (c, codeC)] = codeC) ∧
      (A → B → C → reported [(a, codeA), (b, codeB), (c, codeC)] = .ok) := by
  obtain ⟨hfirst, hsecond, hpass⟩ := reported_of_two (codeA := codeB) (codeB := codeC) hb hc
  exact ⟨reported_of_fail ha, fun hA hB => (reported_of_pass ha hA).trans (hfirst hB),
    fun hA hB hC => (reported_of_pass ha hA).trans (hsecond hB hC),
    fun hA hB hC => (reported_of_pass ha hA).trans (hpass hB hC)⟩

theorem and_and_iff (ha : a = true ↔ A) (hb : b = true ↔ B) (hc : c = true ↔ C) :
    (a && b && c) = true ↔ A ∧ B ∧ C := by
  rw [Bool.and_eq_true, Bool.and_eq_true, ha, hb, hc, and_assoc]

end Priority

/-- The range rule of a buffer whose length is fixed and not 0 (20_memory.md R58). -/
theorem inRange_iff_of_pos {p : Span} (h : 0 < p.len) : p.inRange = true ↔ p.addr.toNat + p.len ≤ 2 ^ 32 := by
  rw [inRange_iff, or_iff_right (Nat.ne_of_gt h)]

/-- Settles O18: an illegal word is refused before any check, and the code of a command is that of the first of its
checks to fail, each check being the rule it stands for. -/
theorem refusalPriority : Obligations.RefusalPriority := by
  intro s src aux srcOk auxOk dstOk
  have hsrc : s.srcSpan.inRange = true ↔ src := inRange_iff _
  have haux : s.auxSpan.inRange = true ↔ aux := inRange_iff _
  have hdigest : s.digestSpan.inRange = true ↔ s.dstAddr.toNat + 16 ≤ 2 ^ 32 := inRange_iff_of_pos (Nat.succ_pos _)
  have hkey : s.keySpan.inRange = true ↔ s.dstAddr.toNat + 8 ≤ 2 ^ 32 := inRange_iff_of_pos (Nat.succ_pos _)
  have hsrcOk : s.srcSpan.valid s.cfg .read = true ↔ srcOk := valid_iff _ _ _
  have hauxOk : s.auxSpan.valid s.cfg .read = true ↔ auxOk := valid_iff _ _ _
  have hdigestOk : s.digestSpan.valid s.cfg .write = true ↔ dstOk 16 .write := valid_iff _ _ _
  have hkeyOk (kind) : s.keySpan.valid s.cfg kind = true ↔ dstOk 8 kind := valid_iff _ _ _
  refine ⟨fun w e t hdecode h => ?_, fun t h => exec_err h, fun t h => ?_, fun t h => ?_, fun t h => ?_, fun t h => ?_,
    fun t h => ?_⟩
  · rw [launch_of_illegal hdecode] at h
    injection h with ht
    exact ht ▸ refuse_err s .illegalCmd
  all_goals rw [exec_err h, checksOf]
  · obtain ⟨hphase, hrest⟩ := reported_of_three (live_iff s) hsrc hsrcOk
    exact ⟨fun hdead => hphase (not_not.mpr hdead), hrest⟩
  · obtain ⟨hphase, hrest⟩ := reported_of_three (live_iff s) hdigest hdigestOk
    exact ⟨fun hdead => hphase (not_not.mpr hdead), hrest⟩
  · obtain ⟨hphase, hpass⟩ := reported_of_one (live_iff s)
    exact ⟨fun hdead => hphase (not_not.mpr hdead), hpass⟩
  · exact reported_of_three (and_and_iff hsrc haux hkey) (and_and_iff hsrcOk hauxOk (hkeyOk .write)) (scratchFits_iff s)
  · exact reported_of_two hkey (by rw [Bool.and_eq_true, hkeyOk, hkeyOk])

end Sys2Proof.Machine

namespace Sys2Proof.Machine

open Sys2Proof

/-! ### Reset inside a command (70_reset_and_hazards.md R220) -/

/-- The bytes a completing command writes end inside MEM, also when it writes none. -/
theorem exec_dst_le_memBytes {i : Instr} {s u : State} (h : exec i s = .next u) (he : u.err = .ok) :
    s.dstAddr.toNat + destBytes i ≤ Config.memBytes := by
  obtain hnone | hrange := exec_dst_inRange i h he
  · rw [hnone]
    exact s.dstAddr.isLt.le
  · exact hrange

/-- What a byte of MEM is after a command cut short by reset (93_implementation_defined.md U4). -/
theorem read_cutMemory {s : State} (w : Word) (hwf : s.mem.wf = true) (a : Nat) :
    (s.cutMemory w).read a = s.mem.read a ∨
      ∃ i u, decode w = .ok i ∧ exec i s = .next u ∧ u.err = .ok ∧ s.dstAddr.toNat ≤ a ∧
        a < s.dstAddr.toNat + destBytes i ∧ (s.cutMemory w).read a = u.mem.read a := by
  obtain hkept | ⟨i, u, hdecode, hexec, herr, hmixed⟩ := cutMemory_cases s w
  · exact .inl (by rw [hkept])
  · rw [hmixed]
    obtain hold | ⟨hlo, hhi, hnew⟩ := read_mixBytes s.mem u.mem (Config.cutWrote s.freeCount) s.dstAddr.toNat
      (destBytes i) hwf 0 (exec_dst_le_memBytes hexec herr) a
    · exact .inl hold
    · exact .inr ⟨i, u, hdecode, hexec, herr, hlo, hhi, hnew⟩

/-- Settles O57: the step answers `resetEngine` over `cutMemory`, and each byte of `cutMemory` is the old one or the
byte of the completed command. -/
theorem resetInsideACommand : Obligations.ResetInsideACommand := by
  intro s w rest hwf hhost
  exact ⟨_, step_of_host_cons hhost, rfl, read_cutMemory (s := s.takeAccess rest) w hwf⟩

end Sys2Proof.Machine
